-- ==== Sys2Proof/Word.lean ====
section
/-! DEFINITION. The word types of the core and their plainest arithmetic (spec rules R5, R6, R7). -/

namespace Sys2Proof

/-- A memory cell, a general register, `sp`, `fl`, an operand: an unsigned 8-bit value (R6). -/
abbrev Byte := BitVec 8

/-- The program counter: 9 bits, so that 0x100 is a value and never wraps to 0 (R5, R13). -/
abbrev PcWord := BitVec 9

/-- `zext_9(v)` of R7, the only widening the spec uses. -/
def zext9 (v : Byte) : PcWord := v.setWidth 9

end Sys2Proof
end

