-- ==== Sys2Proof/Syntax.lean ====
section
/-! DEFINITION. The nine instructions (R2, R53), one constructor per row of the opcode table. An
operand is the whole fetched byte (R52): a register operand above 7 is a value the instruction
itself rejects by raising OutOfBounds(reg) (R113), so it stays in the syntax. -/

namespace Sys2Proof

/-- An instruction with its operand bytes `a` and `b` (R8, R50). -/
inductive Instr where
  /-- LDI a, b: `a` a register index, `b` an immediate byte (R81). -/
  | ldi (a b : Byte)
  /-- PRN a: `a` a register index (R82). -/
  | prn (a : Byte)
  /-- ADD a, b: both register indices (R87). -/
  | add (a b : Byte)
  /-- MUL a, b: both register indices (R88). -/
  | mul (a b : Byte)
  /-- POP a: `a` a register index (R95). -/
  | pop (a : Byte)
  /-- PUSH a: `a` a register index (R94). -/
  | push (a : Byte)
  /-- CALL a: `a` a register index (R101). -/
  | call (a : Byte)
  /-- RET (R102). -/
  | ret
  /-- HLT (R68). -/
  | hlt
  deriving DecidableEq, Repr

end Sys2Proof
end

