-- ==== Sys2Proof/WellFormed.lean ====
section
/-! DEFINITION. Which instructions are legal: every register operand is an index 0..7 (R52, R56). No
other operand value is illegal. -/

namespace Sys2Proof

/-- The register operands of an instruction in the order they are checked, `a` before `b` (R113,
R116). LDI's `b` is an immediate and is not among them. -/
def Instr.registerOperands : Instr → List Byte
  | .ldi a _ => [a]
  | .prn a => [a]
  | .add a b => [a, b]
  | .mul a b => [a, b]
  | .pop a => [a]
  | .push a => [a]
  | .call a => [a]
  | .ret => []
  | .hlt => []

/-- A byte that selects one of `x[0]..x[7]` (R11). -/
abbrev isRegisterIndex (a : Byte) : Prop := a.toNat < 8

/-- Every register operand is legal (R56). -/
abbrev Instr.WellFormed (i : Instr) : Prop := ∀ a ∈ i.registerOperands, isRegisterIndex a

/-- The first register operand that is out of range, if any: the index the instruction's fault
records (R113, R116). -/
def Instr.firstBadRegister (i : Instr) : Option Byte :=
  i.registerOperands.find? fun a => decide (8 ≤ a.toNat)

end Sys2Proof
end

