-- ==== Sys2Proof/Decode.lean ====
section
/-! DEFINITION. The opcode map of R53, the dispatcher's choice (R54, R67) as a total decoder that
rejects by name (R55), and AFTER it the encoder written from the same table. -/

namespace Sys2Proof

/-- The opcode bytes of R53. -/
def opcodeLdi : Byte := 0x82#8
def opcodePrn : Byte := 0x47#8
def opcodeAdd : Byte := 0xA0#8
def opcodeMul : Byte := 0xA2#8
def opcodePop : Byte := 0x46#8
def opcodePush : Byte := 0x45#8
def opcodeCall : Byte := 0x50#8
def opcodeRet : Byte := 0x11#8
def opcodeHlt : Byte := 0x01#8

/-- The nine opcode bytes, in the order of R53. Every other byte is illegal (R55). -/
def opcodeMap : List Byte :=
  [opcodeLdi, opcodePrn, opcodeAdd, opcodeMul, opcodePop, opcodePush, opcodeCall, opcodeRet,
    opcodeHlt]

/-- The three bytes a cycle fetches (R8, R66): always three, whatever the opcode uses. -/
structure Fetched where
  opcode : Byte
  a : Byte
  b : Byte
  deriving DecidableEq, Repr

/-- The fetched bytes in address order (R34). -/
def fetchedBytes (f : Fetched) : List Byte := [f.opcode, f.a, f.b]

/-- Why the decoder rejects. -/
inductive DecodeReject where
  /-- The opcode byte is none of the nine (R55, R111). -/
  | invalidOpcode (opcode : Byte)
  deriving DecidableEq, Repr

/-- The dispatcher (R54, R67): HLT first, then the eight handler opcodes, else InvalidOpcode. It looks
at the opcode alone; the operand bytes are taken as fetched and never judged here (R52). -/
def decode (f : Fetched) : Except DecodeReject Instr :=
  if f.opcode = opcodeHlt then .ok .hlt
  else if f.opcode = opcodeLdi then .ok (.ldi f.a f.b)
  else if f.opcode = opcodePrn then .ok (.prn f.a)
  else if f.opcode = opcodeAdd then .ok (.add f.a f.b)
  else if f.opcode = opcodeMul then .ok (.mul f.a f.b)
  else if f.opcode = opcodePop then .ok (.pop f.a)
  else if f.opcode = opcodePush then .ok (.push f.a)
  else if f.opcode = opcodeCall then .ok (.call f.a)
  else if f.opcode = opcodeRet then .ok .ret
  else .error (.invalidOpcode f.opcode)

/-- The opcode byte of an instruction (R53). -/
def opcodeOf : Instr → Byte
  | .ldi _ _ => opcodeLdi
  | .prn _ => opcodePrn
  | .add _ _ => opcodeAdd
  | .mul _ _ => opcodeMul
  | .pop _ => opcodePop
  | .push _ => opcodePush
  | .call _ => opcodeCall
  | .ret => opcodeRet
  | .hlt => opcodeHlt

/-- The length in bytes, fixed per opcode: formats F2, F1, F0 (R50, R51). -/
def lengthOf : Instr → Nat
  | .ldi _ _ => 3
  | .prn _ => 2
  | .add _ _ => 3
  | .mul _ _ => 3
  | .pop _ => 2
  | .push _ => 2
  | .call _ => 2
  | .ret => 1
  | .hlt => 1

/-- The bytes of an instruction, opcode at the lowest address (R34, R50, R53). -/
def encode : Instr → List Byte
  | .ldi a b => [opcodeLdi, a, b]
  | .prn a => [opcodePrn, a]
  | .add a b => [opcodeAdd, a, b]
  | .mul a b => [opcodeMul, a, b]
  | .pop a => [opcodePop, a]
  | .push a => [opcodePush, a]
  | .call a => [opcodeCall, a]
  | .ret => [opcodeRet]
  | .hlt => [opcodeHlt]

/-- Byte `k` of an instruction word numbered as the opcode table numbers it: bit 0 is the least
significant bit of byte 0, byte `k` is bits `8k+7..8k`, and every bit at or above `nbits` is 0. -/
def tableByte (nbits w k : Nat) : Byte := BitVec.ofNat 8 ((w % 2 ^ nbits) / 2 ^ (8 * k))

/-- The three bytes a fetch would read of that word (R34, R66). -/
def tableFetched (nbits w : Nat) : Fetched :=
  { opcode := tableByte nbits w 0, a := tableByte nbits w 1, b := tableByte nbits w 2 }

/-- What the decoder reads from an instruction word numbered as the opcode table numbers it. -/
def decodeTableWord (nbits w : Nat) : Option Instr :=
  match decode (tableFetched nbits w) with
  | .ok i => some i
  | .error _ => none

end Sys2Proof
end

