-- ==== Sys2Proof/Config.lean ====
section
/-! DEFINITION. The implementation parameters of R5: the fixed sizes and addresses, the three OPEN
reset parameters (arguments of the model), and the OPEN exit status. -/

namespace Sys2Proof.Config

/-- `MEM_SIZE` (R5, R30): cells 0x00..0xFF. -/
def memSize : Nat := 256

/-- `SP_RESET` (R5, R15, R23). -/
def spReset : Byte := 0xF3#8

/-- `SP_TOP`, where POP stops incrementing `sp` (R5, R95). -/
def spTop : Byte := 0xFF#8

/-- `PC_RESET` (R5, R23). -/
def pcReset : PcWord := 0#9

/-- What a memory cell that is not listed holds. DESIGN CHOICE, unsafe (log entry 1): the spec leaves
`MEM_RESET` open. -/
def unlistedByte : Byte := 0#8

/-- The three OPEN reset parameters of R5 and R23, arguments of the model as the spec has them:
`REG_RESET`, `MEM_RESET` and `FL_RESET`. They are fixed for a run and are not state (R10). -/
structure ResetParams where
  /-- `REG_RESET(i)` (R23, D8). -/
  regReset : Fin 8 → Byte
  /-- `MEM_RESET(i)`, read at 0..255 only (R23, D9). -/
  memReset : Nat → Byte
  /-- `FL_RESET` (R23, D10). -/
  flReset : Byte

/-- The reset parameters that `State.reset` names. DESIGN CHOICE, unsafe (log entries 1, 2, 3). -/
def namedReset : ResetParams :=
  { regReset := fun _ => 0#8, memReset := fun _ => unlistedByte, flReset := 0#8 }

/-- One less than `EXIT_STATUS_FAULT`: a free value with no body (R5, R120, D22; log entry 6), so that
`exitStatusFault` below is any non-zero number and no proof can see which. -/
opaque exitStatusFaultLessOne : Nat

/-- `EXIT_STATUS_FAULT` (R120): non-zero, otherwise unknown. -/
def exitStatusFault : Nat := exitStatusFaultLessOne + 1

end Sys2Proof.Config
end

