-- ==== Sys2Proof/Machine/State.lean ====
section
/-! DEFINITION. Everything R10 gives the machine, as plain data; the reasons a step of the model can
stop; and the state right after reset (R23). -/

namespace Sys2Proof.Machine

/-- Memory (R24, R30): the cells that do not hold `Config.unlistedByte`, in strictly rising address
order. `Memory.wf` (Machine/Ops.lean) is that form. -/
abbrev Memory := List Host.Cell

/-- The run state (R18). Halted and Faulted are terminal. -/
inductive RunState where
  | running
  | halted
  | faulted
  deriving DecidableEq, Repr

/-- The fault causes of R110, in the order of their codes 1..5 (`causeCode`). -/
inductive Cause where
  /-- Code 1, raised by the dispatcher (R111). -/
  | invalidOpcode
  /-- Code 2, raised by the ALU for a selector it does not implement; no opcode reaches it (R117). -/
  | unsupportedOperation
  /-- Code 3, raised by an out-of-range memory address or register index (R112, R113). -/
  | outOfBounds
  /-- Code 4, raised by PUSH and CALL with `sp = 0` (R114). -/
  | stackUnderflow
  /-- Code 5, reserved: nothing raises it (R115). -/
  | stackOverflow
  deriving DecidableEq, Repr

/-- Which index space an OutOfBounds fault is about (R19, R110). -/
inductive Space where
  | mem
  | reg
  deriving DecidableEq, Repr

/-- The fault record (R19). -/
structure FaultRecord where
  cause : Cause
  /-- The pc of the faulting cycle. -/
  pc : PcWord
  /-- The fetched opcode byte, `none` when its own fetch failed. -/
  opcode : Option Byte
  /-- For OutOfBounds only. -/
  space : Option Space
  /-- The offending address, register index, opcode or selector; 0 for StackUnderflow. -/
  info : Nat
  deriving DecidableEq, Repr

/-- What a rule's `raise <Cause>(info)` names (R7, R110). StackOverflow has no constructor here, since
nothing raises it (R115). -/
inductive Raise where
  | invalidOpcode (opcode : Byte)
  | unsupportedOperation (selector : Nat)
  | outOfBoundsMem (addr : Nat)
  | outOfBoundsReg (index : Byte)
  | stackUnderflow (sp : Byte)
  deriving DecidableEq, Repr

/-- The state of the core: exactly the list of R10. -/
structure State where
  /-- `x[0]..x[7]` (R11). -/
  regs : Vector Byte 8
  /-- Address of the opcode byte of the current instruction (R13). -/
  pc : PcWord
  /-- Address of the current top of the downward-growing stack (R15). -/
  sp : Byte
  /-- The inert flags byte (R16). -/
  fl : Byte
  /-- The 256 cells (R24, R30). -/
  mem : Memory
  /-- The run state (R18). -/
  run : RunState
  /-- The fault record, present exactly in Faulted (R19). -/
  fault : Option FaultRecord
  /-- The output log, oldest byte first (R20). -/
  out : List Byte
  deriving DecidableEq, Repr

/-- Reasons the machine stops OUTSIDE its own state: there is none. Every fault the spec has is a
terminal run state with a record (R18, R118), which the model reaches as a NEXT state; nobody raises a
`Host.Outcome.fault` (safe; log entry 5). -/
inductive Fault where
  deriving DecidableEq, Repr

/-- Reasons for a refusal. No instruction and no step of the core is refused; the last three are raised
by `Platform.act` (Machine/Boot.lean) on host actions the spec gives no meaning. -/
inductive Refusal where
  /-- An arm of `exec` with no meaning yet. None is left: raised by nobody (safe). -/
  | notModelled (mnemonic : String)
  /-- Raised by `Load` of an image over 256 bytes (R142, U11); safe. -/
  | imageTooLong (length : Nat)
  /-- Raised by a second `Load`, or one after the first `Step` (R143, U12); safe. -/
  | loadOutOfOrder
  /-- Raised by a `Step` before `Load` (R143, U12); safe. -/
  | stepBeforeLoad
  deriving DecidableEq, Repr

/-- The core right after reset, before an image is loaded (R23, R140). `x`, `fl` and memory hold the
values that log entries 1, 2 and 3 name, where the spec leaves them open; `State.resetWith`
(Machine/Boot.lean) is reset for every value of the open parameters. -/
def State.reset : State :=
  { regs := #v[0#8, 0#8, 0#8, 0#8, 0#8, 0#8, 0#8, 0#8]
    pc := Config.pcReset
    sp := Config.spReset
    fl := 0#8
    mem := []
    run := .running
    fault := none
    out := [] }

end Sys2Proof.Machine
end

