-- ==== Sys2Proof/Machine/Ops.lean ====
section
/-! DEFINITION. The named operations over memory, registers and the other state (R7), and taking a
fault (R118). A rule that may raise is a computation `Except Raise State` from the state before it:
an error drops whatever was computed, so that a raise has no other effect (R7, R118). -/

namespace Sys2Proof.Machine

/-! ## Memory as data -/

/-- The canonical form: addresses strictly rising, all below 256, no cell listed that holds the value
an unlisted cell holds. -/
abbrev Memory.wf (m : Memory) : Prop :=
  m.Pairwise (fun c d => c.1 < d.1) ∧ ∀ c ∈ m, c.1 < Config.memSize ∧ c.2 ≠ Config.unlistedByte

/-- The content of cell `addr` (R24). -/
def Memory.read : Memory → Nat → Byte
  | [], _ => Config.unlistedByte
  | c :: m, addr => if c.1 = addr then c.2 else Memory.read m addr

/-- The memory without an entry for `addr`. -/
def Memory.erase : Memory → Nat → Memory
  | [], _ => []
  | c :: m, addr => if c.1 = addr then Memory.erase m addr else c :: Memory.erase m addr

/-- The memory with an entry put in its place in the address order. -/
def Memory.insert : Memory → Nat → Byte → Memory
  | [], addr, v => [(addr, v)]
  | c :: m, addr, v => if addr < c.1 then (addr, v) :: c :: m else c :: Memory.insert m addr v

/-- Set one cell, keeping the canonical form: storing what an unlisted cell holds leaves no entry. -/
def Memory.write (m : Memory) (addr : Nat) (v : Byte) : Memory :=
  if v = Config.unlistedByte then m.erase addr else (m.erase addr).insert addr v

/-- Store consecutive bytes in ascending order from `addr` (R142). -/
def Memory.writeAll : Memory → Nat → List Byte → Memory
  | m, _, [] => m
  | m, addr, v :: vs => Memory.writeAll (m.write addr v) (addr + 1) vs

/-! ## Plain updates of one piece of state -/

/-- `x[i]` (R7, R11). -/
def State.getReg (s : State) (i : Fin 8) : Byte := s.regs[i.val]

/-- `x[i] <- v` (R7, R11). -/
def State.setReg (s : State) (i : Fin 8) (v : Byte) : State := { s with regs := s.regs.set i.val v }

/-- `pc <- t` (R7, R13). -/
def State.setPc (s : State) (t : PcWord) : State := { s with pc := t }

/-- `pc <- pc + n` (R14); `n` is 2 or 3 and `pc <= 0xFD` in a cycle, so the 9 bits never wrap. -/
def State.advancePc (s : State) (n : Nat) : State := s.setPc (s.pc + BitVec.ofNat 9 n)

/-- `sp <- v` (R7, R15). -/
def State.setSp (s : State) (v : Byte) : State := { s with sp := v }

/-- Replace Memory. -/
def State.setMem (s : State) (m : Memory) : State := { s with mem := m }

/-- `run <- r` (R7, R18). -/
def State.setRun (s : State) (r : RunState) : State := { s with run := r }

/-- `Emit(v)` (R7, R20): append at the end of the output log. -/
def State.emit (s : State) (v : Byte) : State := { s with out := s.out ++ [v] }

/-! ## The access primitives -/

/-- `MemRead(addr, 1)` (R32): the cell, or OutOfBounds(mem, addr) above 0xFF; never wrapped. -/
def memRead (s : State) (addr : Nat) : Except Raise Byte :=
  if addr < Config.memSize then .ok (s.mem.read addr) else .error (.outOfBoundsMem addr)

/-- `MemWrite(addr, 1, v)` (R33): set the cell, or OutOfBounds(mem, addr) above 0xFF. -/
def memWrite (s : State) (addr : Nat) (v : Byte) : Except Raise State :=
  if addr < Config.memSize then .ok (s.setMem (s.mem.write addr v))
  else .error (.outOfBoundsMem addr)

/-! ## The stack discipline (R93), shared by PUSH and CALL, and by POP -/

/-- Where a push stores: one below the current top (R93, R94, R101). -/
def pushAddress (s : State) : Nat := (s.sp - 1#8).toNat

/-- Decrement `sp`, then store at the new `sp`; StackUnderflow when `sp = 0` (R94, R101, R114). -/
def pushByte (s : State) (v : Byte) : Except Raise State :=
  if s.sp = 0#8 then .error (.stackUnderflow s.sp)
  else memWrite (s.setSp (s.sp - 1#8)) (pushAddress s) v

/-- The guarded increment of POP: `sp` stays at 0xFF (R95, R97). -/
def raiseSp (s : State) : State := if s.sp = Config.spTop then s else s.setSp (s.sp + 1#8)

/-! ## Taking a fault -/

/-- The cause a raise names (R110). -/
def causeOf : Raise → Cause
  | .invalidOpcode _ => .invalidOpcode
  | .unsupportedOperation _ => .unsupportedOperation
  | .outOfBoundsMem _ => .outOfBounds
  | .outOfBoundsReg _ => .outOfBounds
  | .stackUnderflow _ => .stackUnderflow

/-- The space of an OutOfBounds, absent for every other cause (R19, R110). -/
def spaceOf : Raise → Option Space
  | .invalidOpcode _ => none
  | .unsupportedOperation _ => none
  | .outOfBoundsMem _ => some .mem
  | .outOfBoundsReg _ => some .reg
  | .stackUnderflow _ => none

/-- The `info` a raise records (R110). -/
def infoOf : Raise → Nat
  | .invalidOpcode opcode => opcode.toNat
  | .unsupportedOperation selector => selector
  | .outOfBoundsMem addr => addr
  | .outOfBoundsReg index => index.toNat
  | .stackUnderflow sp => sp.toNat

/-- The numeric code of a cause, 0 for no fault (R110). -/
def causeCode : Option Cause → Nat
  | none => 0
  | some .invalidOpcode => 1
  | some .unsupportedOperation => 2
  | some .outOfBounds => 3
  | some .stackUnderflow => 4
  | some .stackOverflow => 5

/-- Fault entry (R118): write the record, enter Faulted, and change NOTHING else; control goes nowhere.
There is no return from it (R119): the only way out is Reset. -/
def State.takeFault (s : State) (opcode : Option Byte) (r : Raise) : State :=
  { s with
    run := .faulted
    fault := some
      { cause := causeOf r, pc := s.pc, opcode := opcode, space := spaceOf r, info := infoOf r } }

/-- The end of an instruction's rule run in `s`: its writes, or the fault it raised, taken in `s`
itself and recording the instruction's opcode byte (R69, R118). -/
def conclude (i : Instr) (s : State) (r : Except Raise State) :
    Host.Outcome State Fault Refusal :=
  match r with
  | .ok t => .next t
  | .error e => .next (s.takeFault (some (opcodeOf i)) e)

end Sys2Proof.Machine
end

