-- ==== Sys2Proof/Machine/Cycle.lean ====
section
/-! DEFINITION. The part of a cycle before Execute (R65): the run-state test, the fetch (R66) and the
dispatcher's choice (R67). `step` (Machine/Step.lean) only joins it to `exec`. -/

namespace Sys2Proof.Machine

/-- A fault before an instruction was decoded, with the opcode byte if it was read (R19, R66). -/
structure EarlyFault where
  opcode : Option Byte
  raised : Raise
  deriving DecidableEq, Repr

/-- Fetch (R66): three bounds-checked reads at `pc`, `pc + 1`, `pc + 2`, in that order, before any is
looked at. The addresses are natural numbers, so none wraps (R13, R32). -/
def fetch (s : State) : Except EarlyFault Fetched :=
  match memRead s s.pc.toNat with
  | .error r => .error { opcode := none, raised := r }
  | .ok opcode =>
    match memRead s (s.pc.toNat + 1), memRead s (s.pc.toNat + 2) with
    | .error r, _ => .error { opcode := some opcode, raised := r }
    | .ok _, .error r => .error { opcode := some opcode, raised := r }
    | .ok a, .ok b => .ok { opcode := opcode, a := a, b := b }

/-- Fetch, then decode; an unlisted opcode raises InvalidOpcode with its value (R67, R111). -/
def fetchDecode (s : State) : Except EarlyFault Instr :=
  match fetch s with
  | .error e => .error e
  | .ok f =>
    match decode f with
    | .ok i => .ok i
    | .error (.invalidOpcode opcode) =>
      .error { opcode := some opcode, raised := .invalidOpcode opcode }

/-- What a cycle comes to before Execute. -/
inductive Front where
  /-- The step is over with this state. -/
  | settled (t : State)
  /-- This instruction runs. -/
  | execute (i : Instr)
  deriving DecidableEq, Repr

/-- R65 up to Execute: Halted and Faulted are terminal and change nothing (R18); else fetch and
decode, taking the fault they raise (R118). -/
def front (s : State) : Front :=
  match s.run with
  | .halted => .settled s
  | .faulted => .settled s
  | .running =>
    match fetchDecode s with
    | .ok i => .execute i
    | .error e => .settled (s.takeFault e.opcode e.raised)

/-- The state with the bytes of a table word stored where the next fetch reads them, as a `Load` of them
at `pc` would (R142; log entry 4). No cycle executes above 0xFD (R66), so there nothing is stored. -/
def placeWord (s : State) (nbits w : Nat) : State :=
  if s.pc.toNat ≤ 0xFD then
    s.setMem (s.mem.writeAll s.pc.toNat (fetchedBytes (tableFetched nbits w)))
  else s

end Sys2Proof.Machine
end

