-- ==== Sys2Proof/Machine/Operands.lean ====
section
/-! DEFINITION. The two operand forms of R52: a register index, the whole byte, checked before
anything else (R113, R116); and LDI's immediate, the whole byte as fetched. -/

namespace Sys2Proof.Machine

/-- A register operand: legal 0..7, else OutOfBounds(reg, index); the high five bits are not ignored
(R11, R52, R113). -/
def registerIndex (a : Byte) : Except Raise (Fin 8) :=
  if h : a.toNat < 8 then .ok ⟨a.toNat, h⟩ else .error (.outOfBoundsReg a)

/-- LDI's immediate: no sign extension, scaling or masking (R52, R81). -/
def immediate (b : Byte) : Byte := b

end Sys2Proof.Machine
end

