-- ==== Sys2Proof/Machine/Arithmetic.lean ====
section
/-! DEFINITION. The ALU (R85, R86) and its two instructions ADD and MUL (R87, R88). -/

namespace Sys2Proof.Machine

/-- The ALU's operation selector (R85, R86). The core passes `add` and `mul` only; `other` stands for
every value the ALU does not implement, so that its third arm is part of the model
(DESIGN CHOICE, safe; log entry 9). -/
inductive AluOp where
  | add
  | mul
  | other (selector : Nat)
  deriving DecidableEq, Repr

/-- The exact result of an operation as a natural number, before it is reduced (R85, R89). -/
def aluExact : AluOp → Byte → Byte → Except Raise Nat
  | .add, v, w => .ok (v.toNat + w.toNat)
  | .mul, v, w => .ok (v.toNat * w.toNat)
  | .other selector, _, _ => .error (.unsupportedOperation selector)

/-- `ALU(op, i, j)` (R85): both registers are read, then `x[i]` is written with the result modulo 256;
nothing else is touched (R89, R90). -/
def alu (op : AluOp) (i j : Fin 8) (s : State) : Except Raise State := do
  let n ← aluExact op (s.getReg i) (s.getReg j)
  return s.setReg i (BitVec.ofNat 8 (n % 256))

/-- The rule ADD and MUL share: check `a`, check `b`, apply the ALU, advance by 3 (R87, R88, R116). -/
def aluRule (op : AluOp) (a b : Byte) (s : State) : Except Raise State := do
  let i ← registerIndex a
  let j ← registerIndex b
  let t ← alu op i j s
  return t.advancePc 3

/-- ADD a, b: `x[a] <- (x[a] + x[b]) mod 256` (R87). -/
def execAdd (a b : Byte) (s : State) : Host.Outcome State Fault Refusal :=
  conclude (.add a b) s (aluRule .add a b s)

/-- MUL a, b: `x[a] <- (x[a] * x[b]) mod 256` (R88). -/
def execMul (a b : Byte) (s : State) : Host.Outcome State Fault Refusal :=
  conclude (.mul a b) s (aluRule .mul a b s)

end Sys2Proof.Machine
end

