-- ==== Sys2Proof/Machine/Control.lean ====
section
/-! DEFINITION. HLT (R68), the instruction the Control Unit executes itself. -/

namespace Sys2Proof.Machine

/-- HLT: enter Halted; `pc` stays at the HLT and nothing else changes (R68, R14). -/
def execHlt (s : State) : Host.Outcome State Fault Refusal :=
  conclude .hlt s (.ok (s.setRun .halted))

end Sys2Proof.Machine
end

