-- ==== Sys2Proof/Machine/DataMovement.lean ====
section
/-! DEFINITION. The data-movement family: LDI and PRN (R80, R81, R82). -/

namespace Sys2Proof.Machine

/-- LDI a, b: `x[a] <- b` (R81). -/
def execLdi (a b : Byte) (s : State) : Host.Outcome State Fault Refusal :=
  conclude (.ldi a b) s do
    let i ← registerIndex a
    return (s.setReg i (immediate b)).advancePc 3

/-- PRN a: emit `x[a]` (R82). -/
def execPrn (a : Byte) (s : State) : Host.Outcome State Fault Refusal :=
  conclude (.prn a) s do
    let i ← registerIndex a
    return (s.emit (s.getReg i)).advancePc 2

end Sys2Proof.Machine
end

