-- ==== Sys2Proof/Machine/Stack.lean ====
section
/-! DEFINITION. The stack family: PUSH and POP (R93, R94, R95). -/

namespace Sys2Proof.Machine

/-- PUSH a: `x[a]` to the cell below the top; the register check precedes the stack check (R94, R116). -/
def execPush (a : Byte) (s : State) : Host.Outcome State Fault Refusal :=
  conclude (.push a) s do
    let i ← registerIndex a
    let t ← pushByte s (s.getReg i)
    return t.advancePc 2

/-- POP a: the cell at the old `sp` to `x[a]`; `sp` is held at 0xFF; Memory keeps the byte (R95). -/
def execPop (a : Byte) (s : State) : Host.Outcome State Fault Refusal :=
  conclude (.pop a) s do
    let i ← registerIndex a
    let v ← memRead s s.sp.toNat
    return (raiseSp (s.setReg i v)).advancePc 2

end Sys2Proof.Machine
end

