-- ==== Sys2Proof/Machine/Subroutine.lean ====
section
/-! DEFINITION. The subroutine family: CALL and RET (R100, R101, R102). -/

namespace Sys2Proof.Machine

/-- The byte CALL stores: `pc + 2`, which fits since a cycle executes only with `pc <= 0xFD` (R66,
R101; log entry 8). -/
def returnAddress (s : State) : Byte := BitVec.ofNat 8 (s.pc.toNat + 2)

/-- CALL a: push the return address, then jump to `x[a]` (R101). -/
def execCall (a : Byte) (s : State) : Host.Outcome State Fault Refusal :=
  conclude (.call a) s do
    let i ← registerIndex a
    let t ← pushByte s (returnAddress s)
    return t.setPc (zext9 (s.getReg i))

/-- RET: jump to the byte at `sp`, and do NOT change `sp` (R102, conflict C10). -/
def execRet (s : State) : Host.Outcome State Fault Refusal :=
  conclude .ret s do
    let v ← memRead s s.sp.toNat
    return s.setPc (zext9 v)

end Sys2Proof.Machine
end

