-- ==== Sys2Proof/Machine/Step.lean ====
section
/-! DEFINITION. `Step`, one cycle (R65), and the host's way to put an instruction before it. -/

namespace Sys2Proof.Machine

/-- One cycle (R65): total and deterministic. -/
def step (s : State) : Host.Outcome State Fault Refusal :=
  match front s with
  | .settled t => .next t
  | .execute i => exec i s

/-- The state with an instruction word of the opcode table at `pc`, so that the next step fetches and
runs it; nothing else changes. -/
def State.withFetchWord (s : State) (nbits w : Nat) : State := placeWord s nbits w

end Sys2Proof.Machine
end

