-- ==== Sys2Proof/Machine/Boot.lean ====
section
/-! DEFINITION. The host's interface (R27, R146): Reset for every value of the open parameters (R140),
Load (R142), the boot order (R143), and what the host observes at the end (R120, R146). -/

namespace Sys2Proof.Machine

/-- Memory right after Reset: cell `i` holds `MEM_RESET(i)` for every `i` in 0..255 (R23).
Irreducible, so that no proof evaluates the 256 stores by accident. -/
@[irreducible] def resetMemory (p : Config.ResetParams) : Memory :=
  Memory.writeAll [] 0 ((List.range Config.memSize).map p.memReset)

/-- Reset (R23, R140) for given `REG_RESET`, `MEM_RESET` and `FL_RESET`; it keeps nothing (R141). -/
def State.resetWith (p : Config.ResetParams) : State :=
  { regs := Vector.ofFn p.regReset
    pc := Config.pcReset
    sp := Config.spReset
    fl := p.flReset
    mem := resetMemory p
    run := .running
    fault := none
    out := [] }

/-- `Load(image)` (R142): the image to the cells from 0 in ascending order, nothing else; over 256
bytes it is refused (D18, U11). -/
def loadImage (image : List Byte) (s : State) : Host.Outcome State Fault Refusal :=
  if image.length ≤ Config.memSize then .next (s.setMem (s.mem.writeAll 0 image))
  else .refused (.imageTooLong image.length)

/-- Where the host stands in the boot order of R143. The model's own state, no part of the core (log
entry 7). -/
inductive Phase where
  /-- After Reset, before Load. -/
  | awaitingLoad
  /-- After Load, before the first Step. -/
  | loaded
  /-- After the first Step. -/
  | started
  deriving DecidableEq, Repr

/-- The core together with the host's place in the boot order. -/
structure Platform where
  phase : Phase
  core : State
  deriving DecidableEq, Repr

/-- The host's moves (R27, R146). It has no other. -/
inductive HostAction where
  | reset
  | load (image : List Byte)
  | step
  deriving DecidableEq, Repr

/-- The machine as constructed: construction is Reset (R140, R141). -/
def Platform.construct (p : Config.ResetParams) : Platform :=
  { phase := .awaitingLoad, core := State.resetWith p }

/-- Carry an outcome of the core over to the platform. -/
def Platform.lift (phase : Phase) (o : Host.Outcome State Fault Refusal) :
    Host.Outcome Platform Fault Refusal :=
  match o with
  | .next t => .next { phase := phase, core := t }
  | .fault r => .fault r
  | .refused r => .refused r

/-- The effect of a host action (R143, R146): Reset at any time; Load once, after Reset and before the
first Step; Step after Load. An action out of that order has no meaning and is refused by name (U12). -/
def Platform.act (p : Config.ResetParams) (a : HostAction) (h : Platform) :
    Host.Outcome Platform Fault Refusal :=
  match a with
  | .reset => .next (Platform.construct p)
  | .load image =>
    match h.phase with
    | .awaitingLoad => Platform.lift .loaded (loadImage image h.core)
    | .loaded => .refused .loadOutOfOrder
    | .started => .refused .loadOutOfOrder
  | .step =>
    match h.phase with
    | .awaitingLoad => .refused .stepBeforeLoad
    | .loaded => Platform.lift .started (step h.core)
    | .started => Platform.lift .started (step h.core)

/-- The host may inspect registers, `sp`, `pc` and Memory only once the run has ended (R27, R146). -/
def Platform.inspect (h : Platform) : Option State :=
  match h.core.run with
  | .running => none
  | .halted => some h.core
  | .faulted => some h.core

/-- The exit status at the end of a run (R120): 0 on Halted, 1 on InvalidOpcode, `EXIT_STATUS_FAULT` on
every other fault; none while Running. -/
def exitStatus (s : State) : Option Nat :=
  match s.run, s.fault with
  | .running, _ => none
  | .halted, _ => some 0
  | .faulted, some r => if r.cause = .invalidOpcode then some 1 else some Config.exitStatusFault
  | .faulted, none => some Config.exitStatusFault

end Sys2Proof.Machine
end

