-- ==== Sys2Proof/Machine/Flags.lean ====
section
/-! DEFINITION. The nominal layout of `fl` (R16, D21). The spec gives NO flag computation: no
instruction reads or writes `fl`, ADD and MUL included (R16, R89), and nothing in the model uses
these accessors. -/

namespace Sys2Proof.Machine

/-- L, less-than: bit 2 (R16). -/
def flLess (s : State) : Bool := s.fl.getLsbD 2

/-- G, greater-than: bit 1 (R16). -/
def flGreater (s : State) : Bool := s.fl.getLsbD 1

/-- E, equal: bit 0 (R16). -/
def flEqual (s : State) : Bool := s.fl.getLsbD 0

end Sys2Proof.Machine
end

