-- ==== Sys2Proof/Safety.lean ====
section
/-! DEFINITION. What counts as a safe run, and the words in which statements about the machine are made. -/

namespace Sys2Proof.Machine

/-- A run is safe as long as it has not ended in a fault (R18, R71). -/
abbrev State.safe (s : State) : Prop := s.run ≠ .faulted

/-- Halted and Faulted, the two ends of a run (R18, R71). -/
abbrev State.terminal (s : State) : Prop := s.run ≠ .running

/-- The three cells at `pc`, `pc + 1`, `pc + 2`: what a cycle fetches when it can (R8, R66). -/
def fetchedAt (s : State) : Fetched :=
  { opcode := s.mem.read s.pc.toNat
    a := s.mem.read (s.pc.toNat + 1)
    b := s.mem.read (s.pc.toNat + 2) }

/-- The next step executes `i`: the core runs, all three fetch reads are in range, and they decode to
`i` (R65, R66, R67). -/
structure AboutToRun (s : State) (i : Instr) : Prop where
  running : s.run = .running
  inRange : s.pc.toNat ≤ 0xFD
  decoded : decode (fetchedAt s) = .ok i

/-- The state `s` after a fault with the given record, field by field (R19, R118). -/
def State.faultedWith (s : State) (cause : Cause) (opcode : Option Byte) (space : Option Space)
    (info : Nat) : State :=
  { s with
    run := .faulted
    fault := some
      { cause := cause, pc := s.pc, opcode := opcode, space := space, info := info } }

/-- The fetch fault of R66 on the opcode byte `o`: at 0xFE and 0xFF an instruction does not execute, the
cycle faults instead and records the byte it read. -/
def fetchFaultsOn (o : Byte) : Prop :=
  ∀ s : State, s.run = .running → 0xFE ≤ s.pc.toNat → s.pc.toNat ≤ 0xFF →
    s.mem.read s.pc.toNat = o →
    step s = .next (s.faultedWith .outOfBounds (some o) (some .mem) 0x100)

/-- The opcodes that take a register operand (R113, R121). -/
def registerOpcodes : List Byte := [0x82#8, 0x47#8, 0xA0#8, 0xA2#8, 0x46#8, 0x45#8, 0x50#8]

/-- The opcodes that push (R114, R121). -/
def pushOpcodes : List Byte := [0x45#8, 0x50#8]

/-- A fault record the table of R110 allows for a core whose stack pointer is `sp`: the reachable rows
only, so UnsupportedOperation and StackOverflow are excluded (R115, R117). -/
def FaultRecord.Documented (r : FaultRecord) (sp : Byte) : Prop :=
  (r.cause = .invalidOpcode ∧ r.space = none ∧
    ∃ o, r.opcode = some o ∧ o ∉ opcodeMap ∧ r.info = o.toNat) ∨
  (r.cause = .outOfBounds ∧ r.space = some .mem ∧ r.info = 0x100 ∧ 0xFE ≤ r.pc.toNat ∧
    (r.opcode = none ↔ r.pc.toNat = 0x100)) ∨
  (r.cause = .outOfBounds ∧ r.space = some .reg ∧ 8 ≤ r.info ∧ r.info ≤ 255 ∧
    ∃ o ∈ registerOpcodes, r.opcode = some o) ∨
  (r.cause = .stackUnderflow ∧ r.space = none ∧ r.info = 0 ∧ sp = 0#8 ∧
    ∃ o ∈ pushOpcodes, r.opcode = some o)

/-- The invariant every step keeps (R13, R14, R18, R19, R110). -/
structure State.Inv (s : State) : Prop where
  /-- The memory list is canonical and names only the 256 cells (R30). -/
  memWf : s.mem.wf
  /-- `pc` takes the values 0x000..0x100 only (R13). -/
  pcRange : s.pc.toNat ≤ 0x100
  /-- There is no fault record while Running (R19). -/
  running : s.run = .running → s.fault = none
  /-- A halted core has no fault record and stands at a HLT that could be fetched (R14, R68). -/
  halted : s.run = .halted → s.fault = none ∧ s.pc.toNat ≤ 0xFD ∧ s.mem.read s.pc.toNat = 0x01#8
  /-- A faulted core has a record the spec allows, and stands at the faulting instruction (R19, R118). -/
  faulted : s.run = .faulted → ∃ r, s.fault = some r ∧ r.pc = s.pc ∧ r.Documented s.sp

/-- The fault a running cycle must raise, by the priority of R116 and the table of R121; none where the
cycle raises none. -/
def expectedFault (s : State) : Option (Cause × Option Space × Nat) :=
  if 0xFD < s.pc.toNat then some (.outOfBounds, some .mem, 0x100)
  else
    match decode (fetchedAt s) with
    | .error (.invalidOpcode o) => some (.invalidOpcode, none, o.toNat)
    | .ok i =>
      match i.firstBadRegister with
      | some x => some (.outOfBounds, some .reg, x.toNat)
      | none =>
        if opcodeOf i ∈ pushOpcodes ∧ s.sp = 0#8 then some (.stackUnderflow, none, 0) else none

/-- Whether an instruction reads general register `k` (R12). -/
def readsRegister : Instr → Fin 8 → Prop
  | .ldi _ _, _ => False
  | .prn a, k => a.toNat = k.val
  | .add a b, k => a.toNat = k.val ∨ b.toNat = k.val
  | .mul a b, k => a.toNat = k.val ∨ b.toNat = k.val
  | .pop _, _ => False
  | .push a, k => a.toNat = k.val
  | .call a, k => a.toNat = k.val
  | .ret, _ => False
  | .hlt, _ => False

/-- Whether an instruction writes general register `k` (R12). -/
def writesRegister : Instr → Fin 8 → Prop
  | .ldi a _, k => a.toNat = k.val
  | .prn _, _ => False
  | .add a _, k => a.toNat = k.val
  | .mul a _, k => a.toNat = k.val
  | .pop a, k => a.toNat = k.val
  | .push _, _ => False
  | .call _, _ => False
  | .ret, _ => False
  | .hlt, _ => False

/-- Change the next state of an outcome, if there is one. -/
def mapNext (f : State → State) (o : Host.Outcome State Fault Refusal) :
    Host.Outcome State Fault Refusal :=
  match o with
  | .next t => .next (f t)
  | .fault r => .fault r
  | .refused r => .refused r

/-- Instructions executed one after another, each in the state the one before left. -/
def execAll : List Instr → State → Host.Outcome State Fault Refusal
  | [], s => .next s
  | i :: is, s =>
    match exec i s with
    | .next t => execAll is t
    | .fault r => .fault r
    | .refused r => .refused r

/-- The platforms that host actions can bring about from construction (R27, R143, R146). -/
inductive Reachable (p : Config.ResetParams) : Platform → Prop where
  | construct : Reachable p (Platform.construct p)
  | act {h h' : Platform} (a : HostAction) :
      Reachable p h → Platform.act p a h = .next h' → Reachable p h'

end Sys2Proof.Machine
end

