-- ==== Sys2Proof/Certificates/Slice0/Obligations.lean ====
section
/-! DEFINITION. The statements for the provers, from the numbered rules of spec/. -/

open Sys2Proof Sys2Proof.Machine

/-! ## Reset, load and the host (R23, R120, R140 to R146) -/

/-- R23, R140: after Reset every piece of state has its reset value, for every value of the three open
parameters. -/
def Obligations.ResetSetsEveryPieceOfState : Prop :=
  ∀ p : Config.ResetParams,
    (State.resetWith p).pc = 0#9 ∧ (State.resetWith p).sp = 0xF3#8 ∧
    (State.resetWith p).fl = p.flReset ∧ (State.resetWith p).run = .running ∧
    (State.resetWith p).fault = none ∧ (State.resetWith p).out = [] ∧
    (∀ i : Fin 8, (State.resetWith p).getReg i = p.regReset i) ∧
    (∀ addr < 256, (State.resetWith p).mem.read addr = p.memReset addr)

/-- The machine's `reset` is Reset at the parameter values the MODEL names, all zero: the model's choice
(log entries 1, 2 and 3, DESIGN CHOICE), not the spec's. -/
def Obligations.NamedResetIsResetAtLoggedValues : Prop :=
  State.reset =
    State.resetWith { regReset := fun _ => 0#8, memReset := fun _ => 0#8, flReset := 0#8 }

/-- R142: Load copies the image to the cells from 0 and touches nothing else; an image over 256 bytes
is refused (the write at 0x100 is out of range) and the machine never runs. -/
def Obligations.LoadCopiesTheImageFromZero : Prop :=
  (∀ (image : List Byte) (s : State), image.length ≤ 256 →
    ∃ t, loadImage image s = .next t ∧ t = { s with mem := t.mem } ∧
      (∀ (addr : Nat) (h : addr < image.length), t.mem.read addr = image[addr]) ∧
      ∀ addr, image.length ≤ addr → t.mem.read addr = s.mem.read addr) ∧
  (∀ (image : List Byte) (s : State) (p : Config.ResetParams) (h : Platform), 256 < image.length →
    loadImage image s = .refused (.imageTooLong image.length) ∧
    (h.phase = .awaitingLoad →
      Platform.act p (.load image) h = .refused (.imageTooLong image.length))) ∧
  ∀ (s : State) (v : Byte), memWrite s 0x100 v = .error (.outOfBoundsMem 0x100)

/-- R143: the boot order Reset, one Load, then Steps; a Load after the first Step, a second Load and a
Step before Load have no meaning, and the MODEL refuses them by name (log entry 7, DESIGN CHOICE); the
first cycle fetches at address 0. -/
def Obligations.HostActionsKeepTheBootOrder : Prop :=
  ∀ (p : Config.ResetParams) (h : Platform),
    (∀ image : List Byte, h.phase ≠ .awaitingLoad →
      Platform.act p (.load image) h = .refused .loadOutOfOrder) ∧
    (h.phase = .awaitingLoad → Platform.act p .step h = .refused .stepBeforeLoad) ∧
    (h.phase ≠ .awaitingLoad → ∀ t, step h.core = .next t →
      Platform.act p .step h = .next { phase := .started, core := t }) ∧
    (∀ image : List Byte, image.length ≤ 256 →
      ∃ h', Platform.act p (.load image) (Platform.construct p) = .next h' ∧ h'.phase = .loaded ∧
        h'.core.pc = 0#9 ∧ h'.core.run = .running)

/-- R141: Reset is the only way out of Halted and Faulted, and it keeps nothing. -/
def Obligations.OnlyResetLeavesAnEndedRun : Prop :=
  (∀ (p : Config.ResetParams) (h : Platform), Platform.act p .reset h = .next (Platform.construct p)) ∧
  ∀ (p : Config.ResetParams) (a : HostAction) (h h' : Platform),
    h.core.terminal → a ≠ .reset → Platform.act p a h = .next h' →
    h'.core.run = h.core.run ∧ h'.core.fault = h.core.fault ∧ h'.core.out = h.core.out

/-- R120, R146: exit status 0 on Halted, 1 on InvalidOpcode, some non-zero value on every other fault,
none while Running; registers and Memory are inspected only once the run has ended. -/
def Obligations.ExitStatusTellsHowTheRunEnded : Prop :=
  (∀ s : State, s.run = .running → exitStatus s = none) ∧
  (∀ s : State, s.run = .halted → exitStatus s = some 0) ∧
  (∀ (s : State) (r : FaultRecord), s.run = .faulted → s.fault = some r →
    r.cause = .invalidOpcode → exitStatus s = some 1) ∧
  (∀ s : State, s.run = .faulted → ∃ n, n ≠ 0 ∧ exitStatus s = some n) ∧
  (∀ (h : Platform) (s : State), h.inspect = some s ↔ h.core.terminal ∧ s = h.core)

/-! ## The cycle (R18, R65 to R67, R111, R157) -/

/-- R65, R69: when the three bytes at `pc` are fetched and decode to `i`, the step IS `exec i`; nothing
is added around it. -/
def Obligations.StepRunsTheDecodedInstruction : Prop :=
  ∀ (s : State) (i : Instr), s.run = .running → s.pc.toNat ≤ 0xFD →
    decode (fetchedAt s) = .ok i → step s = exec i s

/-- R65: a Step in Halted or Faulted changes nothing; in Running it fetches, then halts on 0x01, raises
InvalidOpcode on an unlisted byte, and else executes the opcode's rule with the fetched operands; it
always answers one next state. -/
def Obligations.StepFollowsTheCycle : Prop :=
  ∀ s : State,
    (∃ t, step s = .next t) ∧
    (s.run ≠ .running → step s = .next s) ∧
    (s.run = .running → s.pc.toNat ≤ 0xFD →
      (s.mem.read s.pc.toNat = 0x01#8 → step s = .next { s with run := .halted }) ∧
      (s.mem.read s.pc.toNat ∉ opcodeMap →
        step s = .next (s.faultedWith .invalidOpcode (some (s.mem.read s.pc.toNat)) none
          (s.mem.read s.pc.toNat).toNat)) ∧
      (s.mem.read s.pc.toNat ∈ opcodeMap →
        ∃ i, opcodeOf i = s.mem.read s.pc.toNat ∧
          encode i <+: [s.mem.read s.pc.toNat, s.mem.read (s.pc.toNat + 1),
            s.mem.read (s.pc.toNat + 2)] ∧
          step s = exec i s))

/-- R66: with `pc <= 0xFD` the cycle fetches the three bytes at `pc`; a cycle that starts at 0xFE, 0xFF or
0x100 executes nothing, whatever the opcode: it raises OutOfBounds(mem, 0x100), with the opcode byte
recorded when it could be read. -/
def Obligations.FetchReadsThreeBytesOrFaults : Prop :=
  (∀ s : State, s.pc.toNat ≤ 0xFD →
    fetch s = .ok { opcode := s.mem.read s.pc.toNat, a := s.mem.read (s.pc.toNat + 1),
                    b := s.mem.read (s.pc.toNat + 2) }) ∧
  ∀ s : State, s.run = .running → 0xFE ≤ s.pc.toNat → s.pc.toNat ≤ 0x100 →
    step s = .next (s.faultedWith .outOfBounds
      (if s.pc.toNat = 0x100 then none else some (s.mem.read s.pc.toNat)) (some .mem) 0x100)

/-- R55, R111: an opcode byte that is none of the nine, 247 of the 256, raises InvalidOpcode with that
byte and `pc`, after the three fetch reads succeeded. -/
def Obligations.UnlistedOpcodeRaisesInvalidOpcode : Prop :=
  (((List.range 256).map (BitVec.ofNat 8)).filter (fun o => decide (o ∉ opcodeMap))).length = 247 ∧
  ∀ s : State, s.run = .running → s.pc.toNat ≤ 0xFD → s.mem.read s.pc.toNat ∉ opcodeMap →
    step s = .next (s.faultedWith .invalidOpcode (some (s.mem.read s.pc.toNat)) none
      (s.mem.read s.pc.toNat).toNat)

/-- R157: while Running a Step halts, faults, or executes one instruction; the core is never stuck. -/
def Obligations.RunningStepHaltsFaultsOrExecutes : Prop :=
  ∀ s : State, s.run = .running →
    ∃ t, step s = .next t ∧
      (t = { s with run := .halted } ∨
        (∃ r, t = { s with run := .faulted, fault := some r }) ∨
        ∃ i, i ≠ .hlt ∧ i.WellFormed ∧ AboutToRun s i ∧ exec i s = .next t ∧ t.run = .running ∧
          t.fault = s.fault)

/-- R18: Running leads to Halted exactly when the fetched opcode is 0x01, to Faulted with a record, or to
Running; Halted and Faulted have no outgoing transition. -/
def Obligations.RunStateTransitions : Prop :=
  ∀ s t : State, step s = .next t →
    (s.run = .halted → t = s) ∧ (s.run = .faulted → t = s) ∧
    (s.run = .running →
      (t.run = .halted ↔ s.pc.toNat ≤ 0xFD ∧ s.mem.read s.pc.toNat = 0x01#8) ∧
      (t.run = .faulted ↔ ∃ r, t = { s with run := .faulted, fault := some r }) ∧
      (t.run = .running → t.fault = s.fault))

/-- R18, R119: from a terminal state every run of steps, however long, ends where it began. -/
def Obligations.TerminalStatesAbsorbEveryRun : Prop :=
  ∀ (n : Nat) (s : State), s.terminal → Host.Core.run Sys2Proof.core n s = .next s

/-! ## The nine instructions: encoding, effect, faults of their own, fetch fault -/

/-- R81. -/
def Obligations.LdiLoadsItsImmediate : Prop :=
  (∀ a b : Byte, encode (.ldi a b) = [0x82#8, a, b]) ∧
  (∀ (s : State) (a b : Byte) (_ : a.toNat < 8), s.pc.toNat ≤ 0xFD →
    exec (.ldi a b) s = .next
      { s with regs := s.regs.set a.toNat b, pc := BitVec.ofNat 9 (s.pc.toNat + 3) }) ∧
  (∀ (s : State) (a b : Byte), 8 ≤ a.toNat →
    exec (.ldi a b) s = .next (s.faultedWith .outOfBounds (some 0x82#8) (some .reg) a.toNat)) ∧
  fetchFaultsOn 0x82#8

/-- R82. -/
def Obligations.PrnEmitsItsRegister : Prop :=
  (∀ a : Byte, encode (.prn a) = [0x47#8, a]) ∧
  (∀ (s : State) (a : Byte) (_ : a.toNat < 8), s.pc.toNat ≤ 0xFD →
    exec (.prn a) s = .next
      { s with out := s.out ++ [s.regs[a.toNat]], pc := BitVec.ofNat 9 (s.pc.toNat + 2) }) ∧
  (∀ (s : State) (a : Byte), 8 ≤ a.toNat →
    exec (.prn a) s = .next (s.faultedWith .outOfBounds (some 0x47#8) (some .reg) a.toNat)) ∧
  fetchFaultsOn 0x47#8

/-- R87, R89. -/
def Obligations.AddWrapsModulo256 : Prop :=
  (∀ a b : Byte, encode (.add a b) = [0xA0#8, a, b]) ∧
  (∀ (s : State) (a b : Byte) (_ : a.toNat < 8) (_ : b.toNat < 8), s.pc.toNat ≤ 0xFD →
    exec (.add a b) s = .next
      { s with
        regs := s.regs.set a.toNat
          (BitVec.ofNat 8 ((s.regs[a.toNat].toNat + s.regs[b.toNat].toNat) % 256))
        pc := BitVec.ofNat 9 (s.pc.toNat + 3) }) ∧
  (∀ (s : State) (a b : Byte), 8 ≤ a.toNat →
    exec (.add a b) s = .next (s.faultedWith .outOfBounds (some 0xA0#8) (some .reg) a.toNat)) ∧
  (∀ (s : State) (a b : Byte), a.toNat < 8 → 8 ≤ b.toNat →
    exec (.add a b) s = .next (s.faultedWith .outOfBounds (some 0xA0#8) (some .reg) b.toNat)) ∧
  fetchFaultsOn 0xA0#8

/-- R88, R89. -/
def Obligations.MulKeepsTheLowByte : Prop :=
  (∀ a b : Byte, encode (.mul a b) = [0xA2#8, a, b]) ∧
  (∀ (s : State) (a b : Byte) (_ : a.toNat < 8) (_ : b.toNat < 8), s.pc.toNat ≤ 0xFD →
    exec (.mul a b) s = .next
      { s with
        regs := s.regs.set a.toNat
          (BitVec.ofNat 8 ((s.regs[a.toNat].toNat * s.regs[b.toNat].toNat) % 256))
        pc := BitVec.ofNat 9 (s.pc.toNat + 3) }) ∧
  (∀ (s : State) (a b : Byte), 8 ≤ a.toNat →
    exec (.mul a b) s = .next (s.faultedWith .outOfBounds (some 0xA2#8) (some .reg) a.toNat)) ∧
  (∀ (s : State) (a b : Byte), a.toNat < 8 → 8 ≤ b.toNat →
    exec (.mul a b) s = .next (s.faultedWith .outOfBounds (some 0xA2#8) (some .reg) b.toNat)) ∧
  fetchFaultsOn 0xA2#8

/-- R94: decrement, then store at the new `sp`; at `sp = 0` StackUnderflow and nothing written. -/
def Obligations.PushStoresBelowTheTop : Prop :=
  (∀ a : Byte, encode (.push a) = [0x45#8, a]) ∧
  (∀ (s : State) (a : Byte) (_ : a.toNat < 8), s.pc.toNat ≤ 0xFD → s.sp ≠ 0#8 →
    ∃ t, exec (.push a) s = .next t ∧
      t = { s with
        sp := BitVec.ofNat 8 (s.sp.toNat - 1)
        pc := BitVec.ofNat 9 (s.pc.toNat + 2)
        mem := t.mem } ∧
      ∀ addr, t.mem.read addr =
        if addr = s.sp.toNat - 1 then s.regs[a.toNat] else s.mem.read addr) ∧
  (∀ (s : State) (a : Byte), 8 ≤ a.toNat →
    exec (.push a) s = .next (s.faultedWith .outOfBounds (some 0x45#8) (some .reg) a.toNat)) ∧
  (∀ (s : State) (a : Byte), a.toNat < 8 → s.sp = 0#8 →
    exec (.push a) s = .next (s.faultedWith .stackUnderflow (some 0x45#8) none 0)) ∧
  fetchFaultsOn 0x45#8

/-- R95: read at the old `sp`, then increment unless it is 0xFF; Memory unchanged. -/
def Obligations.PopLoadsTheTop : Prop :=
  (∀ a : Byte, encode (.pop a) = [0x46#8, a]) ∧
  (∀ (s : State) (a : Byte) (_ : a.toNat < 8), s.pc.toNat ≤ 0xFD →
    exec (.pop a) s = .next
      { s with
        regs := s.regs.set a.toNat (s.mem.read s.sp.toNat)
        sp := if s.sp = 0xFF#8 then 0xFF#8 else BitVec.ofNat 8 (s.sp.toNat + 1)
        pc := BitVec.ofNat 9 (s.pc.toNat + 2) }) ∧
  (∀ (s : State) (a : Byte), 8 ≤ a.toNat →
    exec (.pop a) s = .next (s.faultedWith .outOfBounds (some 0x46#8) (some .reg) a.toNat)) ∧
  fetchFaultsOn 0x46#8

/-- R101: push `pc + 2`, then jump to `x[a]`. -/
def Obligations.CallPushesReturnAddressAndJumps : Prop :=
  (∀ a : Byte, encode (.call a) = [0x50#8, a]) ∧
  (∀ (s : State) (a : Byte) (_ : a.toNat < 8), s.pc.toNat ≤ 0xFD → s.sp ≠ 0#8 →
    ∃ t, exec (.call a) s = .next t ∧
      t = { s with
        sp := BitVec.ofNat 8 (s.sp.toNat - 1)
        pc := BitVec.ofNat 9 s.regs[a.toNat].toNat
        mem := t.mem } ∧
      (∀ addr, addr ≠ s.sp.toNat - 1 → t.mem.read addr = s.mem.read addr) ∧
      (t.mem.read (s.sp.toNat - 1)).toNat = s.pc.toNat + 2) ∧
  (∀ (s : State) (a : Byte), 8 ≤ a.toNat →
    exec (.call a) s = .next (s.faultedWith .outOfBounds (some 0x50#8) (some .reg) a.toNat)) ∧
  (∀ (s : State) (a : Byte), a.toNat < 8 → s.sp = 0#8 →
    exec (.call a) s = .next (s.faultedWith .stackUnderflow (some 0x50#8) none 0)) ∧
  fetchFaultsOn 0x50#8

/-- R102: jump to the byte at `sp`; `sp` is NOT changed. -/
def Obligations.RetReadsTheTopWithoutPopping : Prop :=
  encode .ret = [0x11#8] ∧
  (∀ s : State,
    exec .ret s = .next { s with pc := BitVec.ofNat 9 (s.mem.read s.sp.toNat).toNat }) ∧
  fetchFaultsOn 0x11#8

/-- R68: Halted, and nothing else, `pc` included. -/
def Obligations.HltHaltsAndChangesNothingElse : Prop :=
  encode .hlt = [0x01#8] ∧
  (∀ s : State, exec .hlt s = .next { s with run := .halted }) ∧
  fetchFaultsOn 0x01#8

/-! ## Faults (R110 to R121) -/

/-- R113: the first register operand out of range, `a` before `b`, is the index recorded; LDI's `b` is
never checked. -/
def Obligations.FirstBadRegisterIndexIsRecorded : Prop :=
  (∀ (i : Instr) (s : State) (x : Byte), i.firstBadRegister = some x →
    8 ≤ x.toNat ∧
    exec i s = .next (s.faultedWith .outOfBounds (some (opcodeOf i)) (some .reg) x.toNat)) ∧
  ∀ a b : Byte, (Instr.ldi a b).firstBadRegister = if 8 ≤ a.toNat then some a else none

/-- R114: PUSH and CALL at `sp = 0` raise StackUnderflow with info 0; `sp` stays 0 and nothing is
written. -/
def Obligations.PushAtZeroRaisesStackUnderflow : Prop :=
  ∀ (s : State) (a : Byte), a.toNat < 8 → s.sp = 0#8 →
    exec (.push a) s = .next (s.faultedWith .stackUnderflow (some 0x45#8) none 0) ∧
    exec (.call a) s = .next (s.faultedWith .stackUnderflow (some 0x50#8) none 0)

/-- R116, R121: the fault of a cycle is the first that applies in the spec's order, and a cycle to which
none applies does not fault. -/
def Obligations.FaultsFollowThePriorityOrder : Prop :=
  ∀ s t : State, s.run = .running → s.pc.toNat ≤ 0x100 → step s = .next t →
    match expectedFault s with
    | some (cause, space, info) =>
      t = s.faultedWith cause
        (if s.pc.toNat = 0x100 then none else some (s.mem.read s.pc.toNat)) space info
    | none => t.run ≠ .faulted

/-- R118: a cycle that faults writes the record, which holds its `pc`, enters Faulted, and leaves
everything else as it was. -/
def Obligations.FaultsArePrecise : Prop :=
  ∀ s t : State, s.run = .running → step s = .next t → t.run = .faulted →
    ∃ r, t = { s with run := .faulted, fault := some r } ∧ r.pc = s.pc

/-- R110, R115, R117: a recorded fault is a reachable row of the table with the `pc` of its cycle, so
UnsupportedOperation and StackOverflow are never recorded; the causes have the table's codes, and the
code is 0 outside Faulted in every state that meets the invariant; the ALU raises UnsupportedOperation
on a selector it does not implement. -/
def Obligations.OnlyTableFaultsAreRecorded : Prop :=
  (causeCode none = 0 ∧ causeCode (some .invalidOpcode) = 1 ∧
    causeCode (some .unsupportedOperation) = 2 ∧ causeCode (some .outOfBounds) = 3 ∧
    causeCode (some .stackUnderflow) = 4 ∧ causeCode (some .stackOverflow) = 5) ∧
  (∀ s t : State, s.run = .running → s.pc.toNat ≤ 0x100 → step s = .next t → t.run = .faulted →
    ∃ r, t.fault = some r ∧ r.pc = s.pc ∧ r.Documented s.sp ∧
      r.cause ≠ .unsupportedOperation ∧ r.cause ≠ .stackOverflow) ∧
  (∀ s : State, s.Inv → s.safe → causeCode (s.fault.map FaultRecord.cause) = 0) ∧
  ∀ (n : Nat) (i j : Fin 8) (s : State), alu (.other n) i j s = .error (.unsupportedOperation n)

/-! ## The ALU and memory primitives (R32, R33, R85, R90) -/

/-- R85, R90: the ALU writes `x[i]` alone, from both registers' old values, modulo 256; any other
selector fails. -/
def Obligations.AluWritesItsFirstRegisterOnly : Prop :=
  ∀ (i j : Fin 8) (s : State),
    alu .add i j s = .ok { s with
      regs := s.regs.set i.val
        (BitVec.ofNat 8 ((s.regs[i.val].toNat + s.regs[j.val].toNat) % 256)) } ∧
    alu .mul i j s = .ok { s with
      regs := s.regs.set i.val
        (BitVec.ofNat 8 ((s.regs[i.val].toNat * s.regs[j.val].toNat) % 256)) } ∧
    (∀ n, alu (.other n) i j s = .error (.unsupportedOperation n)) ∧
    (∀ t, alu .add i i s = .ok t →
      (t.getReg i).toNat = (2 * (s.getReg i).toNat) % 256) ∧
    (∀ t, alu .mul i i s = .ok t →
      (t.getReg i).toNat = ((s.getReg i).toNat * (s.getReg i).toNat) % 256)

/-- R32, R33: a read is the cell and a write sets exactly that cell, inside 0x00..0xFF; outside it both
raise OutOfBounds(mem) with the unreduced address. -/
def Obligations.MemoryAccessesAreBoundsChecked : Prop :=
  ∀ (s : State) (addr : Nat) (v : Byte),
    (addr ≤ 0xFF → memRead s addr = .ok (s.mem.read addr)) ∧
    (0xFF < addr → memRead s addr = .error (.outOfBoundsMem addr)) ∧
    (addr ≤ 0xFF → ∃ t, memWrite s addr v = .ok t ∧ t = { s with mem := t.mem } ∧
      ∀ b, t.mem.read b = if b = addr then v else s.mem.read b) ∧
    (0xFF < addr → memWrite s addr v = .error (.outOfBoundsMem addr))

/-! ## Frames: what a next state leaves unchanged, a fault's next state included -/

/-- LDI, ADD, MUL: every register but `x[a]`, `sp`, `fl`, `out`, every byte of memory; and run and fault
unless the instruction raised, when every register and `pc` are unchanged too (R12, R81, R87, R88). -/
def Obligations.FrameOfLdiAddMul : Prop :=
  ∀ (i : Instr) (a b : Byte) (s t : State),
    i = .ldi a b ∨ i = .add a b ∨ i = .mul a b → exec i s = .next t →
    (∀ k : Fin 8, a.toNat ≠ k.val → t.getReg k = s.getReg k) ∧
    t.sp = s.sp ∧ t.fl = s.fl ∧ t.out = s.out ∧ (∀ addr, t.mem.read addr = s.mem.read addr) ∧
    ((t.run = s.run ∧ t.fault = s.fault) ∨
      (t.run = .faulted ∧ t.regs = s.regs ∧ t.pc = s.pc))

/-- PRN: every register, `sp`, `fl`, every byte of memory; `out` keeps what it held; run and fault unless
it raised, when `out` and `pc` are unchanged too (R12, R82). -/
def Obligations.FrameOfPrn : Prop :=
  ∀ (a : Byte) (s t : State), exec (.prn a) s = .next t →
    (∀ k : Fin 8, t.getReg k = s.getReg k) ∧
    t.sp = s.sp ∧ t.fl = s.fl ∧ s.out <+: t.out ∧ (∀ addr, t.mem.read addr = s.mem.read addr) ∧
    ((t.run = s.run ∧ t.fault = s.fault) ∨
      (t.run = .faulted ∧ t.out = s.out ∧ t.pc = s.pc))

/-- POP: every register but `x[a]`, `fl`, `out`, every byte of memory; run and fault unless it raised,
when every register, `sp` and `pc` are unchanged too (R12, R95). -/
def Obligations.FrameOfPop : Prop :=
  ∀ (a : Byte) (s t : State), exec (.pop a) s = .next t →
    (∀ k : Fin 8, a.toNat ≠ k.val → t.getReg k = s.getReg k) ∧
    t.fl = s.fl ∧ t.out = s.out ∧ (∀ addr, t.mem.read addr = s.mem.read addr) ∧
    ((t.run = s.run ∧ t.fault = s.fault) ∨
      (t.run = .faulted ∧ t.regs = s.regs ∧ t.sp = s.sp ∧ t.pc = s.pc))

/-- PUSH and CALL: every register, `fl`, `out`, every byte of memory but the one at `pushAddress`, the
address the meanings store to; run and fault unless it raised, when `sp`, `pc` and all of memory are
unchanged too (R12, R94, R101). -/
def Obligations.FrameOfPushAndCall : Prop :=
  ∀ (i : Instr) (a : Byte) (s t : State),
    i = .push a ∨ i = .call a → exec i s = .next t →
    (∀ k : Fin 8, t.getReg k = s.getReg k) ∧ t.fl = s.fl ∧ t.out = s.out ∧
    (∀ addr, addr ≠ pushAddress s → t.mem.read addr = s.mem.read addr) ∧
    ((t.run = s.run ∧ t.fault = s.fault) ∨
      (t.run = .faulted ∧ t.sp = s.sp ∧ t.pc = s.pc ∧ ∀ addr, t.mem.read addr = s.mem.read addr))

/-- RET and HLT: every register, `sp`, `fl`, `out`, the fault record, every byte of memory; RET leaves
run, HLT leaves `pc` (R12, R68, R102). -/
def Obligations.FrameOfRetAndHlt : Prop :=
  ∀ (i : Instr) (s t : State), i = .ret ∨ i = .hlt → exec i s = .next t →
    (∀ k : Fin 8, t.getReg k = s.getReg k) ∧ t.sp = s.sp ∧ t.fl = s.fl ∧ t.out = s.out ∧
    t.fault = s.fault ∧ (∀ addr, t.mem.read addr = s.mem.read addr) ∧
    (i = .ret → t.run = s.run) ∧ (i = .hlt → t.pc = s.pc)

/-! ## Rules of the whole machine -/

/-- R16: no step reads `fl` or writes it; its nominal layout is bit 2 L, bit 1 G, bit 0 E. -/
def Obligations.FlagsAreNeitherReadNorWritten : Prop :=
  (∀ s : State, flLess s = s.fl.getLsbD 2 ∧ flGreater s = s.fl.getLsbD 1 ∧
    flEqual s = s.fl.getLsbD 0) ∧
  (∀ s t : State, step s = .next t → t.fl = s.fl) ∧
  ∀ (s : State) (v : Byte),
    step { s with fl := v } = mapNext (fun t => { t with fl := v }) (step s)

/-- R20: the output log is empty at reset, grows by one byte on a PRN and is else unchanged, and no step
reads it. -/
def Obligations.OnlyPrnExtendsTheOutput : Prop :=
  (∀ p : Config.ResetParams, (State.resetWith p).out = []) ∧
  (∀ s t : State, step s = .next t →
    t.out = s.out ∨
      ∃ (a : Byte) (_ : a.toNat < 8), AboutToRun s (.prn a) ∧ t.out = s.out ++ [s.regs[a.toNat]]) ∧
  ∀ (s : State) (older : List Byte),
    step { s with out := older ++ s.out } =
      mapNext (fun t => { t with out := older ++ t.out }) (step s)

/-- R12, the table: an instruction changes no register it does not write, and its outcome does not depend
on a register it does not read. -/
def Obligations.RegistersAreUsedAsTabulated : Prop :=
  (∀ (i : Instr) (s t : State) (k : Fin 8), ¬ writesRegister i k → exec i s = .next t →
    t.getReg k = s.getReg k) ∧
  (∀ (i : Instr) (s : State) (k : Fin 8) (v : Byte), ¬ readsRegister i k → writesRegister i k →
    exec i (s.setReg k v) = exec i s) ∧
  ∀ (i : Instr) (s : State) (k : Fin 8) (v : Byte), ¬ readsRegister i k → ¬ writesRegister i k →
    exec i (s.setReg k v) = mapNext (fun t => t.setReg k v) (exec i s)

/-- R15: only PUSH and CALL lower `sp`, by one and from at least 1; only POP raises it, by one and from
below 0xFF; so it never wraps. -/
def Obligations.StackPointerMovesByOneAndNeverWraps : Prop :=
  ∀ s t : State, step s = .next t →
    t.sp = s.sp ∨
    (∃ i, AboutToRun s i ∧ opcodeOf i ∈ pushOpcodes ∧ 1 ≤ s.sp.toNat ∧
      t.sp.toNat = s.sp.toNat - 1) ∨
    ∃ a, AboutToRun s (.pop a) ∧ s.sp.toNat < 0xFF ∧ t.sp.toNat = s.sp.toNat + 1

/-- R24, R31: a step that changes a byte of memory executes PUSH or CALL, and the byte is the one below
the top of the stack. -/
def Obligations.OnlyPushAndCallWriteMemory : Prop :=
  ∀ s t : State, step s = .next t → ∀ addr, t.mem.read addr ≠ s.mem.read addr →
    addr = s.sp.toNat - 1 ∧ ∃ i, AboutToRun s i ∧ opcodeOf i ∈ pushOpcodes

/-- R97: at `sp = 0xFF` POP loads cell 0xFF, advances `pc` by 2 and holds `sp`; a PUSH there writes cell
0xFE and the next POP reads it and returns `sp` to 0xFF; no step ever writes cell 0xFF. -/
def Obligations.TopBoundaryIsIdempotent : Prop :=
  (∀ (s : State) (a : Byte) (_ : a.toNat < 8), s.pc.toNat ≤ 0xFD → s.sp = 0xFF#8 →
    exec (.pop a) s = .next
      { s with
        regs := s.regs.set a.toNat (s.mem.read 0xFF), pc := BitVec.ofNat 9 (s.pc.toNat + 2) }) ∧
  (∀ (s : State) (a b : Byte) (_ : a.toNat < 8) (_ : b.toNat < 8), s.sp = 0xFF#8 →
    ∃ t u, exec (.push a) s = .next t ∧ t.sp = 0xFE#8 ∧ t.mem.read 0xFE = s.regs[a.toNat] ∧
      exec (.pop b) t = .next u ∧ u.sp = 0xFF#8 ∧ u.regs[b.toNat] = s.regs[a.toNat]) ∧
  ∀ s t : State, step s = .next t → t.mem.read 0xFF = s.mem.read 0xFF

/-- R43: a byte stored by PUSH or CALL is the opcode the next cycle fetches when `pc` has come to stand
on it. -/
def Obligations.StoredByteIsFetchedNext : Prop :=
  ∀ (s t : State) (i : Instr) (a : Byte) (_ : a.toNat < 8),
    i = .push a ∨ i = .call a → AboutToRun s i → s.sp ≠ 0#8 → step s = .next t →
    t.pc.toNat = pushAddress s → t.pc.toNat ≤ 0xFD →
    ∃ f, fetch t = .ok f ∧
      (i = .push a → f.opcode = s.regs[a.toNat]) ∧
      (i = .call a → f.opcode.toNat = s.pc.toNat + 2)

/-- R50, R51: the length is fixed by the opcode, and an instruction of length 2 or 3 other than CALL that
completes advances `pc` by it. -/
def Obligations.InstructionLengthIsThePcAdvance : Prop :=
  (∀ i, (encode i).length = lengthOf i) ∧
  (∀ i j, opcodeOf i = opcodeOf j → lengthOf i = lengthOf j) ∧
  ∀ (i : Instr) (s t : State), s.run = .running → s.pc.toNat ≤ 0xFD → 2 ≤ lengthOf i →
    opcodeOf i ≠ 0x50#8 → exec i s = .next t → t.run = .running →
    t.pc.toNat = s.pc.toNat + lengthOf i

/-! ## Two or more instructions -/

/-- R83. -/
def Obligations.LdiThenPrnEmitsTheImmediate : Prop :=
  ∀ (s : State) (a v : Byte), a.toNat < 8 → s.run = .running → s.pc.toNat ≤ 0xFA →
    s.mem.read s.pc.toNat = 0x82#8 → s.mem.read (s.pc.toNat + 1) = a →
    s.mem.read (s.pc.toNat + 2) = v → s.mem.read (s.pc.toNat + 3) = 0x47#8 →
    s.mem.read (s.pc.toNat + 4) = a →
    ∃ t u, step s = .next t ∧ step t = .next u ∧ u.out = s.out ++ [v]

/-- R91, with truncation implemented as R89 says. -/
def Obligations.ArithmeticThenPrnEmitsTheWrappedResult : Prop :=
  ∀ (s : State) (a b : Byte) (_ : a.toNat < 8) (_ : b.toNat < 8), s.run = .running →
    s.pc.toNat ≤ 0xFA → s.mem.read (s.pc.toNat + 1) = a → s.mem.read (s.pc.toNat + 2) = b →
    s.mem.read (s.pc.toNat + 3) = 0x47#8 → s.mem.read (s.pc.toNat + 4) = a →
    (s.mem.read s.pc.toNat = 0xA0#8 → ∃ t u v, step s = .next t ∧ step t = .next u ∧
      u.out = s.out ++ [v] ∧
      v.toNat = (s.regs[a.toNat].toNat + s.regs[b.toNat].toNat) % 256) ∧
    (s.mem.read s.pc.toNat = 0xA2#8 → ∃ t u v, step s = .next t ∧ step t = .next u ∧
      u.out = s.out ++ [v] ∧
      v.toNat = (s.regs[a.toNat].toNat * s.regs[b.toNat].toNat) % 256)

/-- R96: for every `sp` from 1 to 0xFF a PUSH then a POP copies the register and restores `sp`; at
`sp = 0` the PUSH faults. -/
def Obligations.PushThenPopRoundTrips : Prop :=
  (∀ (s : State) (a b : Byte) (_ : a.toNat < 8) (_ : b.toNat < 8), s.sp ≠ 0#8 →
    ∃ t u, exec (.push a) s = .next t ∧ exec (.pop b) t = .next u ∧ u.sp = s.sp ∧
      u.regs = s.regs.set b.toNat s.regs[a.toNat]) ∧
  ∀ (s : State) (a : Byte), a.toNat < 8 → s.sp = 0#8 →
    ∃ t, exec (.push a) s = .next t ∧ t.run = .faulted

/-- R103, R104: after a CALL, a RET with the `sp` the CALL left and the byte at it not overwritten
resumes at `pc + 2` of the CALL, and leaves `sp` one below what it was before the CALL. -/
def Obligations.RetResumesAfterTheCall : Prop :=
  ∀ (s t u : State) (a : Byte), a.toNat < 8 → s.pc.toNat ≤ 0xFD → s.sp ≠ 0#8 →
    exec (.call a) s = .next t → u.sp = t.sp →
    u.mem.read t.sp.toNat = t.mem.read t.sp.toNat →
    ∃ v, exec .ret u = .next v ∧ v.pc.toNat = s.pc.toNat + 2 ∧ v.sp.toNat = s.sp.toNat - 1 ∧
      (v.mem.read v.sp.toNat).toNat = s.pc.toNat + 2

/-- R105, R102: a second RET with nothing between reads the same cell and changes nothing. -/
def Obligations.SecondRetGoesNowhereNew : Prop :=
  ∀ s t : State, exec .ret s = .next t → exec .ret t = .next t

/-- R104: PUSHes and CALLs that nothing pops each take one byte of stack; from the reset value 0xF3 of
`sp` 243 of them succeed and the 244th raises StackUnderflow. -/
def Obligations.UnpoppedPushesExhaustTheStack : Prop :=
  ∀ (is : List Instr) (s : State),
    (∀ i ∈ is, ∃ a : Byte, a.toNat < 8 ∧ (i = .push a ∨ i = .call a)) →
    (is.length ≤ s.sp.toNat →
      ∃ t, execAll is s = .next t ∧ t.sp.toNat = s.sp.toNat - is.length ∧ t.run = s.run) ∧
    (s.sp = 0xF3#8 → is.length = 243 →
      ∃ t, execAll is s = .next t ∧ t.run = s.run ∧
        ∀ a : Byte, a.toNat < 8 →
          exec (.push a) t = .next (t.faultedWith .stackUnderflow (some 0x45#8) none 0) ∧
          exec (.call a) t = .next (t.faultedWith .stackUnderflow (some 0x50#8) none 0))

/-! ## Encoding -/

/-- R50, R53: three fetched bytes decode to `i` exactly when they begin with `i`'s encoding; so decoding
an encoded instruction gives it back at every value of every operand byte, and the bytes after it do
not matter. -/
def Obligations.DecodeAndEncodeAgree : Prop :=
  ∀ (f : Fetched) (i : Instr), decode f = .ok i ↔ encode i <+: fetchedBytes f

/-- R53: one word of each row of the opcode map, written out from the table. -/
def Obligations.WordsOfTheOpcodeMapDecode : Prop :=
  decodeTableWord 24 0x080082 = some (.ldi 0#8 8#8) ∧
  decodeTableWord 16 0x0347 = some (.prn 3#8) ∧
  decodeTableWord 24 0x0201A0 = some (.add 1#8 2#8) ∧
  decodeTableWord 24 0x0105A2 = some (.mul 5#8 1#8) ∧
  decodeTableWord 16 0x0646 = some (.pop 6#8) ∧
  decodeTableWord 16 0x0745 = some (.push 7#8) ∧
  decodeTableWord 16 0x0150 = some (.call 1#8) ∧
  decodeTableWord 8 0x11 = some .ret ∧
  decodeTableWord 8 0x01 = some .hlt ∧
  decodeTableWord 8 0x00 = none ∧
  decodeTableWord 24 0x000080 = none

/-! ## The invariant -/

/-- R13, R18, R19, R30, R110: every step keeps the invariant. -/
def Obligations.StepKeepsTheInvariant : Prop :=
  ∀ s t : State, s.Inv → step s = .next t → t.Inv

/-- The machine's reset state meets the invariant. -/
def Obligations.ResetStateMeetsInvariant : Prop :=
  State.reset.Inv

/-- R27, R143: whatever the open reset parameters, the image and the host's actions, every state the core
can come to meets the invariant. -/
def Obligations.ReachableCoresMeetInvariant : Prop :=
  ∀ (p : Config.ResetParams) (h : Platform), Reachable p h → h.core.Inv
end

