-- ==== Sys2Proof/Laws/Memory.lean ====
section
/-! SUPPORT. Memory as data: a read after a write (R32, R33, R40), and that every memory operation keeps
the canonical form. -/

namespace Sys2Proof.Machine

@[simp] theorem Memory.read_nil (addr : Nat) : Memory.read [] addr = Config.unlistedByte := rfl

@[simp] theorem Memory.read_erase (m : Memory) (addr b : Nat) :
    (m.erase addr).read b = if b = addr then Config.unlistedByte else m.read b := by
  induction m with
  | nil => simp [Memory.erase, Memory.read]
  | cons c m ih =>
    unfold Memory.erase
    split
    · rename_i hc
      rw [ih, Memory.read, hc]
      by_cases hb : b = addr
      · simp [hb]
      · simp [hb, Ne.symm hb]
    · rename_i hc
      rw [Memory.read, Memory.read, ih]
      by_cases hb : c.1 = b
      · have : b ≠ addr := fun e => hc (hb.trans e)
        simp [hb, this]
      · simp [hb]

theorem Memory.read_insert (m : Memory) (addr : Nat) (v : Byte) (b : Nat)
    (h : ∀ c ∈ m, c.1 ≠ addr) :
    (m.insert addr v).read b = if b = addr then v else m.read b := by
  induction m with
  | nil => simp [Memory.insert, Memory.read, eq_comm]
  | cons c m ih =>
    have hc : c.1 ≠ addr := h c (by simp)
    have ih := ih fun d hd => h d (by simp [hd])
    unfold Memory.insert
    split
    · simp [Memory.read, eq_comm]
    · by_cases hb : c.1 = b
      · have : b ≠ addr := fun e => hc (hb.trans e)
        simp [Memory.read, hb, this]
      · simp [Memory.read, hb, ih]

theorem Memory.mem_erase {m : Memory} {addr : Nat} {c : Host.Cell} :
    c ∈ m.erase addr ↔ c ∈ m ∧ c.1 ≠ addr := by
  induction m with
  | nil => simp [Memory.erase]
  | cons d m ih =>
    by_cases hd : d.1 = addr
    · simp only [Memory.erase, hd, if_true, ih, List.mem_cons]
      constructor
      · rintro ⟨h, h'⟩; exact ⟨.inr h, h'⟩
      · rintro ⟨rfl | h, h'⟩
        · exact absurd hd h'
        · exact ⟨h, h'⟩
    · simp only [Memory.erase, hd, if_false, ih, List.mem_cons]
      constructor
      · rintro (rfl | ⟨h, h'⟩)
        · exact ⟨.inl rfl, hd⟩
        · exact ⟨.inr h, h'⟩
      · rintro ⟨rfl | h, h'⟩
        · exact .inl rfl
        · exact .inr ⟨h, h'⟩

theorem Memory.mem_insert {m : Memory} {addr : Nat} {v : Byte} {c : Host.Cell} :
    c ∈ m.insert addr v ↔ c = (addr, v) ∨ c ∈ m := by
  induction m with
  | nil => simp [Memory.insert]
  | cons d m ih =>
    unfold Memory.insert
    split
    · simp
    · simp only [List.mem_cons, ih]
      tauto

/-- A read after a write: the written byte there, the old byte everywhere else (R33, R40). -/
@[simp] theorem Memory.read_write (m : Memory) (addr : Nat) (v : Byte) (b : Nat) :
    (m.write addr v).read b = if b = addr then v else m.read b := by
  unfold Memory.write
  split
  · rename_i hv; simp [hv]
  · rw [Memory.read_insert _ _ _ _ fun c hc => (Memory.mem_erase.mp hc).2]
    by_cases hb : b = addr <;> simp [hb]

theorem Memory.wf_nil : Memory.wf [] := by simp [Memory.wf]

theorem Memory.wf_erase {m : Memory} (h : m.wf) (addr : Nat) : (m.erase addr).wf := by
  refine ⟨?_, fun c hc => h.2 c (Memory.mem_erase.mp hc).1⟩
  have hp := h.1
  clear h
  induction m with
  | nil => simp [Memory.erase]
  | cons c m ih =>
    have hp' := List.pairwise_cons.mp hp
    unfold Memory.erase
    split
    · exact ih hp'.2
    · exact List.pairwise_cons.mpr ⟨fun d hd => hp'.1 d (Memory.mem_erase.mp hd).1, ih hp'.2⟩

theorem Memory.pairwise_insert {m : Memory} (h : m.Pairwise fun c d => c.1 < d.1) (addr : Nat)
    (v : Byte) (ha : ∀ c ∈ m, c.1 ≠ addr) : (m.insert addr v).Pairwise fun c d => c.1 < d.1 := by
  induction m with
  | nil => simp [Memory.insert]
  | cons c m ih =>
    have h' := List.pairwise_cons.mp h
    have hc : c.1 ≠ addr := ha c (by simp)
    unfold Memory.insert
    split
    · rename_i hlt
      refine List.pairwise_cons.mpr ⟨?_, h⟩
      intro d hd
      rcases List.mem_cons.mp hd with rfl | hd
      · exact hlt
      · exact hlt.trans (h'.1 d hd)
    · rename_i hge
      refine List.pairwise_cons.mpr ⟨?_, ih h'.2 fun d hd => ha d (by simp [hd])⟩
      intro d hd
      rcases Memory.mem_insert.mp hd with rfl | hd
      · exact lt_of_le_of_ne (not_lt.mp hge) hc
      · exact h'.1 d hd

/-- A write inside the address space keeps the canonical form. -/
theorem Memory.wf_write {m : Memory} (h : m.wf) {addr : Nat} (ha : addr < Config.memSize)
    (v : Byte) : (m.write addr v).wf := by
  have he := Memory.wf_erase h addr
  unfold Memory.write
  split
  · exact he
  · rename_i hv
    refine ⟨Memory.pairwise_insert he.1 addr v fun c hc => (Memory.mem_erase.mp hc).2, ?_⟩
    intro c hc
    rcases Memory.mem_insert.mp hc with rfl | hc
    · exact ⟨ha, hv⟩
    · exact he.2 c hc

theorem Memory.wf_writeAll {m : Memory} (h : m.wf) {addr : Nat} (vs : List Byte)
    (ha : addr + vs.length ≤ Config.memSize) : (m.writeAll addr vs).wf := by
  induction vs generalizing m addr with
  | nil => exact h
  | cons v vs ih =>
    simp only [List.length_cons] at ha
    exact ih (Memory.wf_write h (by omega) v) (by omega)

/-- Consecutive stores: the listed bytes in their cells, every other cell as before (R142). -/
theorem Memory.read_writeAll (m : Memory) (addr : Nat) (vs : List Byte) (b : Nat) :
    (m.writeAll addr vs).read b =
      if h : addr ≤ b ∧ b < addr + vs.length then vs[b - addr] else m.read b := by
  induction vs generalizing m addr with
  | nil =>
    have : ¬(addr ≤ b ∧ b < addr + 0) := by omega
    simp [Memory.writeAll]
  | cons v vs ih =>
    rw [Memory.writeAll, ih]
    by_cases h1 : addr + 1 ≤ b ∧ b < addr + 1 + vs.length
    · have h2 : addr ≤ b ∧ b < addr + (v :: vs).length := by
        simp only [List.length_cons]; omega
      rw [dif_pos h1, dif_pos h2]
      have : b - addr = (b - (addr + 1)) + 1 := by omega
      simp [this]
    · rw [dif_neg h1, Memory.read_write]
      by_cases hb : b = addr
      · subst hb
        have h2 : b ≤ b ∧ b < b + (v :: vs).length := by simp
        rw [if_pos rfl, dif_pos h2]
        simp
      · have h2 : ¬(addr ≤ b ∧ b < addr + (v :: vs).length) := by
          simp only [List.length_cons]; omega
        rw [if_neg hb, dif_neg h2]

/-- Storing what an unlisted cell holds, in empty memory, lists nothing. -/
theorem Memory.writeAll_nil_unlisted (addr : Nat) {vs : List Byte}
    (h : ∀ v ∈ vs, v = Config.unlistedByte) : Memory.writeAll [] addr vs = [] := by
  induction vs generalizing addr with
  | nil => rfl
  | cons v vs ih =>
    have hv := h v (by simp)
    simp only [Memory.writeAll, Memory.write, hv, if_true]
    exact ih (addr + 1) fun w hw => h w (by simp [hw])

/-- Memory filled from address 0 by a function of the address is canonical (R23). -/
theorem Memory.wf_filled (f : Nat → Byte) {n : Nat} (h : n ≤ Config.memSize) :
    (Memory.writeAll [] 0 ((List.range n).map f)).wf :=
  Memory.wf_writeAll Memory.wf_nil _ (by rw [List.length_map, List.length_range]; omega)

/-- Memory filled from address 0 by a function of the address reads as that function (R23). -/
theorem Memory.read_filled (f : Nat → Byte) {n b : Nat} (h : b < n) :
    (Memory.writeAll [] 0 ((List.range n).map f)).read b = f b := by
  rw [Memory.read_writeAll, dif_pos (by simpa using h)]
  simp

end Sys2Proof.Machine
end

