-- ==== Sys2Proof/Laws/Boot.lean ====
section
/-! SUPPORT. Reset field by field for every value of the open parameters (R23), what Load leaves (R142), and
that both give canonical memory. -/

namespace Sys2Proof.Machine

@[simp] theorem State.resetWith_regs (p : Config.ResetParams) :
    (State.resetWith p).regs = Vector.ofFn p.regReset := rfl
@[simp] theorem State.resetWith_pc (p : Config.ResetParams) :
    (State.resetWith p).pc = Config.pcReset := rfl
@[simp] theorem State.resetWith_sp (p : Config.ResetParams) :
    (State.resetWith p).sp = Config.spReset := rfl
@[simp] theorem State.resetWith_fl (p : Config.ResetParams) :
    (State.resetWith p).fl = p.flReset := rfl
@[simp] theorem State.resetWith_mem (p : Config.ResetParams) :
    (State.resetWith p).mem = resetMemory p := rfl
@[simp] theorem State.resetWith_run (p : Config.ResetParams) :
    (State.resetWith p).run = .running := rfl
@[simp] theorem State.resetWith_fault (p : Config.ResetParams) :
    (State.resetWith p).fault = none := rfl
@[simp] theorem State.resetWith_out (p : Config.ResetParams) :
    (State.resetWith p).out = [] := rfl

theorem resetMemory_wf (p : Config.ResetParams) : Memory.wf (resetMemory p) := by
  unfold resetMemory
  exact Memory.wf_filled p.memReset (Nat.le_refl _)

theorem resetMemory_read (p : Config.ResetParams) {addr : Nat} (h : addr < 256) :
    (resetMemory p).read addr = p.memReset addr := by
  unfold resetMemory
  exact Memory.read_filled p.memReset h

theorem State.reset_mem_wf : Memory.wf State.reset.mem := Memory.wf_nil

theorem loadImage_of_le {image : List Byte} (h : image.length ≤ Config.memSize) (s : State) :
    loadImage image s = .next (s.setMem (s.mem.writeAll 0 image)) := if_pos h

theorem loadImage_of_gt {image : List Byte} (h : Config.memSize < image.length) (s : State) :
    loadImage image s = .refused (.imageTooLong image.length) := if_neg (not_le.mpr h)

/-- Load keeps memory canonical. -/
theorem loadImage_mem_wf {image : List Byte} {s t : State} (h : loadImage image s = .next t)
    (hs : Memory.wf s.mem) : Memory.wf t.mem := by
  unfold loadImage at h
  split at h
  · rename_i hl
    cases h
    exact Memory.wf_writeAll hs image (by omega)
  · cases h

end Sys2Proof.Machine
end

