-- ==== Sys2Proof/Laws/State.lean ====
section
/-! SUPPORT. One lemma per field per update of State, so that no proof unfolds a record update. -/

namespace Sys2Proof.Machine

/-! ### `State.setReg` -/

@[simp] theorem State.setReg_regs (s : State) (i : Fin 8) (v : Byte) :
    (s.setReg i v).regs = s.regs.set i.val v := rfl
@[simp] theorem State.setReg_pc (s : State) (i : Fin 8) (v : Byte) :
    (s.setReg i v).pc = s.pc := rfl
@[simp] theorem State.setReg_sp (s : State) (i : Fin 8) (v : Byte) :
    (s.setReg i v).sp = s.sp := rfl
@[simp] theorem State.setReg_fl (s : State) (i : Fin 8) (v : Byte) :
    (s.setReg i v).fl = s.fl := rfl
@[simp] theorem State.setReg_mem (s : State) (i : Fin 8) (v : Byte) :
    (s.setReg i v).mem = s.mem := rfl
@[simp] theorem State.setReg_run (s : State) (i : Fin 8) (v : Byte) :
    (s.setReg i v).run = s.run := rfl
@[simp] theorem State.setReg_fault (s : State) (i : Fin 8) (v : Byte) :
    (s.setReg i v).fault = s.fault := rfl
@[simp] theorem State.setReg_out (s : State) (i : Fin 8) (v : Byte) :
    (s.setReg i v).out = s.out := rfl

/-! ### `State.setPc` -/

@[simp] theorem State.setPc_regs (s : State) (t : PcWord) :
    (s.setPc t).regs = s.regs := rfl
@[simp] theorem State.setPc_pc (s : State) (t : PcWord) :
    (s.setPc t).pc = t := rfl
@[simp] theorem State.setPc_sp (s : State) (t : PcWord) :
    (s.setPc t).sp = s.sp := rfl
@[simp] theorem State.setPc_fl (s : State) (t : PcWord) :
    (s.setPc t).fl = s.fl := rfl
@[simp] theorem State.setPc_mem (s : State) (t : PcWord) :
    (s.setPc t).mem = s.mem := rfl
@[simp] theorem State.setPc_run (s : State) (t : PcWord) :
    (s.setPc t).run = s.run := rfl
@[simp] theorem State.setPc_fault (s : State) (t : PcWord) :
    (s.setPc t).fault = s.fault := rfl
@[simp] theorem State.setPc_out (s : State) (t : PcWord) :
    (s.setPc t).out = s.out := rfl

/-! ### `State.advancePc` -/

@[simp] theorem State.advancePc_regs (s : State) (n : Nat) :
    (s.advancePc n).regs = s.regs := rfl
@[simp] theorem State.advancePc_pc (s : State) (n : Nat) :
    (s.advancePc n).pc = s.pc + BitVec.ofNat 9 n := rfl
@[simp] theorem State.advancePc_sp (s : State) (n : Nat) :
    (s.advancePc n).sp = s.sp := rfl
@[simp] theorem State.advancePc_fl (s : State) (n : Nat) :
    (s.advancePc n).fl = s.fl := rfl
@[simp] theorem State.advancePc_mem (s : State) (n : Nat) :
    (s.advancePc n).mem = s.mem := rfl
@[simp] theorem State.advancePc_run (s : State) (n : Nat) :
    (s.advancePc n).run = s.run := rfl
@[simp] theorem State.advancePc_fault (s : State) (n : Nat) :
    (s.advancePc n).fault = s.fault := rfl
@[simp] theorem State.advancePc_out (s : State) (n : Nat) :
    (s.advancePc n).out = s.out := rfl

/-! ### `State.setSp` -/

@[simp] theorem State.setSp_regs (s : State) (v : Byte) :
    (s.setSp v).regs = s.regs := rfl
@[simp] theorem State.setSp_pc (s : State) (v : Byte) :
    (s.setSp v).pc = s.pc := rfl
@[simp] theorem State.setSp_sp (s : State) (v : Byte) :
    (s.setSp v).sp = v := rfl
@[simp] theorem State.setSp_fl (s : State) (v : Byte) :
    (s.setSp v).fl = s.fl := rfl
@[simp] theorem State.setSp_mem (s : State) (v : Byte) :
    (s.setSp v).mem = s.mem := rfl
@[simp] theorem State.setSp_run (s : State) (v : Byte) :
    (s.setSp v).run = s.run := rfl
@[simp] theorem State.setSp_fault (s : State) (v : Byte) :
    (s.setSp v).fault = s.fault := rfl
@[simp] theorem State.setSp_out (s : State) (v : Byte) :
    (s.setSp v).out = s.out := rfl

/-! ### `State.setMem` -/

@[simp] theorem State.setMem_regs (s : State) (m : Memory) :
    (s.setMem m).regs = s.regs := rfl
@[simp] theorem State.setMem_pc (s : State) (m : Memory) :
    (s.setMem m).pc = s.pc := rfl
@[simp] theorem State.setMem_sp (s : State) (m : Memory) :
    (s.setMem m).sp = s.sp := rfl
@[simp] theorem State.setMem_fl (s : State) (m : Memory) :
    (s.setMem m).fl = s.fl := rfl
@[simp] theorem State.setMem_mem (s : State) (m : Memory) :
    (s.setMem m).mem = m := rfl
@[simp] theorem State.setMem_run (s : State) (m : Memory) :
    (s.setMem m).run = s.run := rfl
@[simp] theorem State.setMem_fault (s : State) (m : Memory) :
    (s.setMem m).fault = s.fault := rfl
@[simp] theorem State.setMem_out (s : State) (m : Memory) :
    (s.setMem m).out = s.out := rfl

/-! ### `State.setRun` -/

@[simp] theorem State.setRun_regs (s : State) (r : RunState) :
    (s.setRun r).regs = s.regs := rfl
@[simp] theorem State.setRun_pc (s : State) (r : RunState) :
    (s.setRun r).pc = s.pc := rfl
@[simp] theorem State.setRun_sp (s : State) (r : RunState) :
    (s.setRun r).sp = s.sp := rfl
@[simp] theorem State.setRun_fl (s : State) (r : RunState) :
    (s.setRun r).fl = s.fl := rfl
@[simp] theorem State.setRun_mem (s : State) (r : RunState) :
    (s.setRun r).mem = s.mem := rfl
@[simp] theorem State.setRun_run (s : State) (r : RunState) :
    (s.setRun r).run = r := rfl
@[simp] theorem State.setRun_fault (s : State) (r : RunState) :
    (s.setRun r).fault = s.fault := rfl
@[simp] theorem State.setRun_out (s : State) (r : RunState) :
    (s.setRun r).out = s.out := rfl

/-! ### `State.emit` -/

@[simp] theorem State.emit_regs (s : State) (v : Byte) :
    (s.emit v).regs = s.regs := rfl
@[simp] theorem State.emit_pc (s : State) (v : Byte) :
    (s.emit v).pc = s.pc := rfl
@[simp] theorem State.emit_sp (s : State) (v : Byte) :
    (s.emit v).sp = s.sp := rfl
@[simp] theorem State.emit_fl (s : State) (v : Byte) :
    (s.emit v).fl = s.fl := rfl
@[simp] theorem State.emit_mem (s : State) (v : Byte) :
    (s.emit v).mem = s.mem := rfl
@[simp] theorem State.emit_run (s : State) (v : Byte) :
    (s.emit v).run = s.run := rfl
@[simp] theorem State.emit_fault (s : State) (v : Byte) :
    (s.emit v).fault = s.fault := rfl
@[simp] theorem State.emit_out (s : State) (v : Byte) :
    (s.emit v).out = s.out ++ [v] := rfl

/-! ### `State.takeFault` (R118) -/

@[simp] theorem State.takeFault_regs (s : State) (opcode : Option Byte) (r : Raise) :
    (s.takeFault opcode r).regs = s.regs := rfl
@[simp] theorem State.takeFault_pc (s : State) (opcode : Option Byte) (r : Raise) :
    (s.takeFault opcode r).pc = s.pc := rfl
@[simp] theorem State.takeFault_sp (s : State) (opcode : Option Byte) (r : Raise) :
    (s.takeFault opcode r).sp = s.sp := rfl
@[simp] theorem State.takeFault_fl (s : State) (opcode : Option Byte) (r : Raise) :
    (s.takeFault opcode r).fl = s.fl := rfl
@[simp] theorem State.takeFault_mem (s : State) (opcode : Option Byte) (r : Raise) :
    (s.takeFault opcode r).mem = s.mem := rfl
@[simp] theorem State.takeFault_run (s : State) (opcode : Option Byte) (r : Raise) :
    (s.takeFault opcode r).run = .faulted := rfl
@[simp] theorem State.takeFault_fault (s : State) (opcode : Option Byte) (r : Raise) :
    (s.takeFault opcode r).fault = some ⟨causeOf r, s.pc, opcode, spaceOf r, infoOf r⟩ := rfl
@[simp] theorem State.takeFault_out (s : State) (opcode : Option Byte) (r : Raise) :
    (s.takeFault opcode r).out = s.out := rfl

/-! ### Reading a general register (R12) -/

theorem State.getReg_setReg (s : State) (i k : Fin 8) (v : Byte) :
    (s.setReg i v).getReg k = if k = i then v else s.getReg k := by
  by_cases h : k = i
  · simp [State.getReg, State.setReg, h]
  · have h' : i.val ≠ k.val := fun e => h (Fin.ext e.symm)
    simp [State.getReg, State.setReg, h, h']

@[simp] theorem State.getReg_setReg_self (s : State) (i : Fin 8) (v : Byte) :
    (s.setReg i v).getReg i = v := by
  simp [State.getReg_setReg]

theorem State.getReg_setReg_of_ne (s : State) {i k : Fin 8} (v : Byte) (h : k ≠ i) :
    (s.setReg i v).getReg k = s.getReg k := by
  simp [State.getReg_setReg, h]

end Sys2Proof.Machine
end

