-- ==== Sys2Proof/Laws/Ops.lean ====
section
/-! SUPPORT. One lemma per shared operation that says everything it can do; proofs cite these instead of
unfolding the operation. -/

namespace Sys2Proof.Machine

/-! ## Access primitives (R32, R33) -/

theorem memRead_of_lt (s : State) {addr : Nat} (h : addr < 256) :
    memRead s addr = .ok (s.mem.read addr) := if_pos h

theorem memRead_of_ge (s : State) {addr : Nat} (h : 256 ≤ addr) :
    memRead s addr = .error (.outOfBoundsMem addr) := if_neg (not_lt.mpr h)

theorem memWrite_of_lt (s : State) {addr : Nat} (h : addr < 256) (v : Byte) :
    memWrite s addr v = .ok (s.setMem (s.mem.write addr v)) := if_pos h

theorem memWrite_of_ge (s : State) {addr : Nat} (h : 256 ≤ addr) (v : Byte) :
    memWrite s addr v = .error (.outOfBoundsMem addr) := if_neg (not_lt.mpr h)

/-- A read through an 8-bit pointer is always in range (R32). -/
@[simp] theorem memRead_byte (s : State) (p : Byte) :
    memRead s p.toNat = .ok (s.mem.read p.toNat) := memRead_of_lt s p.isLt

/-- A store keeps memory canonical. -/
theorem memWrite_mem_wf {s t : State} {addr : Nat} {v : Byte} (h : memWrite s addr v = .ok t)
    (hs : Memory.wf s.mem) : Memory.wf t.mem := by
  unfold memWrite at h
  split at h
  · rename_i ha; cases h; exact Memory.wf_write hs ha v
  · cases h

/-! ## Operand forms (R52, R113) -/

theorem registerIndex_of_lt {a : Byte} (h : a.toNat < 8) :
    registerIndex a = .ok ⟨a.toNat, h⟩ := dif_pos h

theorem registerIndex_of_ge {a : Byte} (h : 8 ≤ a.toNat) :
    registerIndex a = .error (.outOfBoundsReg a) := dif_neg (not_lt.mpr h)

@[simp] theorem immediate_eq (b : Byte) : immediate b = b := rfl

/-! ## The stack discipline (R93, R94, R95, R114) -/

theorem pushAddress_of_ne {s : State} (h : s.sp ≠ 0#8) :
    pushAddress s = s.sp.toNat - 1 := by
  unfold pushAddress
  have : s.sp.toNat ≠ 0 := fun e => h (BitVec.eq_of_toNat_eq e)
  bv_omega

theorem pushAddress_lt (s : State) : pushAddress s < 256 := (s.sp - 1#8).isLt

theorem pushByte_zero {s : State} (h : s.sp = 0#8) (v : Byte) :
    pushByte s v = .error (.stackUnderflow s.sp) := if_pos h

theorem pushByte_of_ne {s : State} (h : s.sp ≠ 0#8) (v : Byte) :
    pushByte s v =
      .ok ((s.setSp (s.sp - 1#8)).setMem (s.mem.write (pushAddress s) v)) := by
  rw [pushByte, if_neg h, memWrite_of_lt _ (pushAddress_lt s), State.setSp_mem]

/-- A push keeps memory canonical. -/
theorem pushByte_mem_wf {s t : State} {v : Byte} (h : pushByte s v = .ok t)
    (hs : Memory.wf s.mem) : Memory.wf t.mem := by
  by_cases h0 : s.sp = 0#8
  · rw [pushByte_zero h0] at h; cases h
  · rw [pushByte_of_ne h0] at h; cases h; exact Memory.wf_write hs (pushAddress_lt s) v

theorem raiseSp_top {s : State} (h : s.sp = 0xFF#8) : raiseSp s = s := if_pos h

theorem raiseSp_of_ne {s : State} (h : s.sp ≠ 0xFF#8) : raiseSp s = s.setSp (s.sp + 1#8) :=
  if_neg h

/-- POP's increment touches `sp` alone (R95). -/
theorem raiseSp_eq_setSp (s : State) :
    raiseSp s = s.setSp (if s.sp = 0xFF#8 then s.sp else s.sp + 1#8) := by
  by_cases h : s.sp = 0xFF#8
  · rw [raiseSp_top h, if_pos h]; rfl
  · rw [raiseSp_of_ne h, if_neg h]

/-! ## Fault entry and the end of a rule (R69, R118) -/

theorem takeFault_eq (s : State) (opcode : Option Byte) (r : Raise) :
    s.takeFault opcode r = s.faultedWith (causeOf r) opcode (spaceOf r) (infoOf r) := rfl

@[simp] theorem conclude_ok (i : Instr) (s t : State) : conclude i s (.ok t) = .next t := rfl

@[simp] theorem conclude_error (i : Instr) (s : State) (e : Raise) :
    conclude i s (.error e) = .next (s.takeFault (some (opcodeOf i)) e) := rfl

/-- A rule ends in its writes or in a fault taken in the state it started from, and in nothing else. -/
theorem conclude_cases {i : Instr} {s t : State} {r : Except Raise State}
    (h : conclude i s r = .next t) :
    r = .ok t ∨ ∃ e, r = .error e ∧ t = s.takeFault (some (opcodeOf i)) e := by
  cases r with
  | ok u => left; cases h; rfl
  | error e => right; cases h; exact ⟨e, rfl, rfl⟩

/-! ## Sequencing of checks: what `do` means for `Except` -/

@[simp] theorem except_ok_bind {α β : Type} (a : α) (f : α → Except Raise β) :
    (Except.ok a >>= f) = f a := rfl

@[simp] theorem except_error_bind {α β : Type} (e : Raise) (f : α → Except Raise β) :
    ((Except.error e : Except Raise α) >>= f) = .error e := rfl

@[simp] theorem except_pure {α : Type} (a : α) : (pure a : Except Raise α) = .ok a := rfl

/-! ## The ALU (R85) -/

theorem alu_add (i j : Fin 8) (s : State) :
    alu .add i j s = .ok (s.setReg i (BitVec.ofNat 8 (((s.getReg i).toNat + (s.getReg j).toNat) % 256))) :=
  rfl

theorem alu_mul (i j : Fin 8) (s : State) :
    alu .mul i j s = .ok (s.setReg i (BitVec.ofNat 8 (((s.getReg i).toNat * (s.getReg j).toNat) % 256))) :=
  rfl

theorem alu_other (n : Nat) (i j : Fin 8) (s : State) :
    alu (.other n) i j s = .error (.unsupportedOperation n) := rfl

end Sys2Proof.Machine
end

