-- ==== Sys2Proof/Laws/Cycle.lean ====
section
/-! SUPPORT. The front of a cycle: what the fetch reads and when it faults (R66), and what the dispatcher
answers on each opcode (R54, R67). -/

namespace Sys2Proof

/-- An accepted instruction has the opcode that was fetched, so a fault records the fetched byte. -/
theorem decode_opcode {f : Fetched} {i : Instr} (h : decode f = .ok i) :
    f.opcode = opcodeOf i := by
  unfold decode at h
  repeat' split at h
  all_goals first | (cases h; assumption) | cases h

/-- A rejection names the fetched opcode, which is none of the nine (R55). -/
theorem decode_error {f : Fetched} {o : Byte} (h : decode f = .error (.invalidOpcode o)) :
    o = f.opcode ∧ f.opcode ∉ opcodeMap := by
  unfold decode at h
  repeat' split at h
  all_goals first
    | (cases h; refine ⟨rfl, ?_⟩; simp only [opcodeMap, List.mem_cons, List.not_mem_nil]; tauto)
    | cases h

end Sys2Proof

namespace Sys2Proof.Machine

/-- With `pc <= 0xFD` the fetch reads the three cells (R66). -/
theorem fetch_of_le {s : State} (h : s.pc.toNat ≤ 0xFD) : fetch s = .ok (fetchedAt s) := by
  unfold fetch
  rw [memRead_of_lt s (by omega), memRead_of_lt s (by omega), memRead_of_lt s (by omega)]
  rfl

/-- With `pc` at 0xFE or 0xFF the opcode byte is read and a later read faults at 0x100 (R66). -/
theorem fetch_of_last {s : State} (h : 0xFE ≤ s.pc.toNat) (h' : s.pc.toNat ≤ 0xFF) :
    fetch s = .error ⟨some (s.mem.read s.pc.toNat), .outOfBoundsMem 0x100⟩ := by
  have hp : s.pc.toNat = 0xFE ∨ s.pc.toNat = 0xFF := by omega
  unfold fetch
  rcases hp with hp | hp <;> rw [hp] <;> rfl

/-- Above 0xFF the read of the opcode byte itself faults (R66). -/
theorem fetch_of_beyond {s : State} (h : 0x100 ≤ s.pc.toNat) :
    fetch s = .error ⟨none, .outOfBoundsMem s.pc.toNat⟩ := by
  unfold fetch
  rw [memRead_of_ge s h]

theorem fetchDecode_of_fetch {s : State} {f : Fetched} {i : Instr} (h : fetch s = .ok f)
    (h' : decode f = .ok i) : fetchDecode s = .ok i := by
  simp [fetchDecode, h, h']

theorem fetchDecode_of_reject {s : State} {f : Fetched} {o : Byte} (h : fetch s = .ok f)
    (h' : decode f = .error (.invalidOpcode o)) :
    fetchDecode s = .error ⟨some o, .invalidOpcode o⟩ := by
  simp [fetchDecode, h, h']

theorem fetchDecode_of_fault {s : State} {e : EarlyFault} (h : fetch s = .error e) :
    fetchDecode s = .error e := by
  simp [fetchDecode, h]

/-- The faults before an instruction is decoded, and where each arises (R66, R111, R112). -/
theorem fetchDecode_error {s : State} {e : EarlyFault} (h : fetchDecode s = .error e) :
    (s.pc.toNat ≤ 0xFD ∧ s.mem.read s.pc.toNat ∉ opcodeMap ∧
      decode (fetchedAt s) = .error (.invalidOpcode (s.mem.read s.pc.toNat)) ∧
      e = ⟨some (s.mem.read s.pc.toNat), .invalidOpcode (s.mem.read s.pc.toNat)⟩) ∨
    (0xFE ≤ s.pc.toNat ∧ s.pc.toNat ≤ 0xFF ∧
      e = ⟨some (s.mem.read s.pc.toNat), .outOfBoundsMem 0x100⟩) ∨
    (0x100 ≤ s.pc.toNat ∧ e = ⟨none, .outOfBoundsMem s.pc.toNat⟩) := by
  by_cases hp : s.pc.toNat ≤ 0xFD
  · left
    cases hd : decode (fetchedAt s) with
    | ok i => rw [fetchDecode_of_fetch (fetch_of_le hp) hd] at h; cases h
    | error r =>
      rcases r with ⟨o⟩
      rw [fetchDecode_of_reject (fetch_of_le hp) hd] at h
      cases h
      obtain ⟨ho, hm⟩ := decode_error hd
      subst ho
      exact ⟨hp, hm, rfl, rfl⟩
  · by_cases hb : 0x100 ≤ s.pc.toNat
    · rw [fetchDecode_of_fault (fetch_of_beyond hb)] at h
      cases h; exact .inr (.inr ⟨hb, rfl⟩)
    · rw [fetchDecode_of_fault (fetch_of_last (by omega) (by omega))] at h
      cases h; exact .inr (.inl ⟨by omega, by omega, rfl⟩)

/-- Placing an instruction word keeps memory canonical. -/
theorem placeWord_mem_wf {s : State} (hs : Memory.wf s.mem) (nbits w : Nat) :
    Memory.wf (placeWord s nbits w).mem := by
  unfold placeWord
  split
  · rename_i hp
    refine Memory.wf_writeAll hs _ ?_
    have : Config.memSize = 256 := rfl
    simp only [fetchedBytes, List.length_cons, List.length_nil]
    omega
  · exact hs

/-- After a word is placed at `pc <= 0xFD`, the fetch reads exactly its three bytes. -/
theorem fetch_placeWord {s : State} (h : s.pc.toNat ≤ 0xFD) (nbits w : Nat) :
    fetch (placeWord s nbits w) = .ok (tableFetched nbits w) := by
  rw [placeWord, if_pos h, fetch_of_le (by exact h)]
  simp [fetchedAt, fetchedBytes, Memory.read_writeAll]

end Sys2Proof.Machine
end

