-- ==== Sys2Proof/Laws/Exec.lean ====
section
/-! SUPPORT. What an instruction and a step can do, said once: the inversion lemmas `exec_cases` and
`step_cases`, which invariants and frames cite instead of unfolding the meanings. -/

namespace Sys2Proof.Machine

/-- The next state of an instruction that raises nothing, and the operand and stack conditions under
which it raises nothing. -/
def Completes : Instr → State → State → Prop
  | .ldi a b, s, t => ∃ h : a.toNat < 8, t = (s.setReg ⟨a.toNat, h⟩ b).advancePc 3
  | .prn a, s, t => ∃ h : a.toNat < 8, t = (s.emit (s.getReg ⟨a.toNat, h⟩)).advancePc 2
  | .add a b, s, t => ∃ (h : a.toNat < 8) (h' : b.toNat < 8),
      t = (s.setReg ⟨a.toNat, h⟩ (BitVec.ofNat 8
        (((s.getReg ⟨a.toNat, h⟩).toNat + (s.getReg ⟨b.toNat, h'⟩).toNat) % 256))).advancePc 3
  | .mul a b, s, t => ∃ (h : a.toNat < 8) (h' : b.toNat < 8),
      t = (s.setReg ⟨a.toNat, h⟩ (BitVec.ofNat 8
        (((s.getReg ⟨a.toNat, h⟩).toNat * (s.getReg ⟨b.toNat, h'⟩).toNat) % 256))).advancePc 3
  | .pop a, s, t => ∃ h : a.toNat < 8,
      t = (raiseSp (s.setReg ⟨a.toNat, h⟩ (s.mem.read s.sp.toNat))).advancePc 2
  | .push a, s, t => ∃ h : a.toNat < 8, s.sp ≠ 0#8 ∧
      t = ((s.setSp (s.sp - 1#8)).setMem
        (s.mem.write (pushAddress s) (s.getReg ⟨a.toNat, h⟩))).advancePc 2
  | .call a, s, t => ∃ h : a.toNat < 8, s.sp ≠ 0#8 ∧
      t = ((s.setSp (s.sp - 1#8)).setMem
        (s.mem.write (pushAddress s) (returnAddress s))).setPc (zext9 (s.getReg ⟨a.toNat, h⟩))
  | .ret, s, t => t = s.setPc (zext9 (s.mem.read s.sp.toNat))
  | .hlt, s, t => t = s.setRun .halted

/-- What an instruction raises in `s`, by the table of R121 and the order of R116. -/
def Raises (i : Instr) (s : State) (e : Raise) : Prop :=
  (∃ x, i.firstBadRegister = some x ∧ 8 ≤ x.toNat ∧ opcodeOf i ∈ registerOpcodes ∧
    e = .outOfBoundsReg x) ∨
  (i.firstBadRegister = none ∧ opcodeOf i ∈ pushOpcodes ∧ s.sp = 0#8 ∧ e = .stackUnderflow s.sp)

theorem firstBadRegister_one {i : Instr} {a : Byte} (h : i.registerOperands = [a]) :
    i.firstBadRegister = if a.toNat < 8 then none else some a := by
  unfold Instr.firstBadRegister
  by_cases ha : a.toNat < 8
  · simp [h, ha]
  · have : 8 ≤ a.toNat := by omega
    simp [h, ha, this]

theorem firstBadRegister_two {i : Instr} {a b : Byte} (h : i.registerOperands = [a, b]) :
    i.firstBadRegister =
      if a.toNat < 8 then (if b.toNat < 8 then none else some b) else some a := by
  unfold Instr.firstBadRegister
  by_cases ha : a.toNat < 8
  · by_cases hb : b.toNat < 8
    · simp [h, ha, hb]
    · have : 8 ≤ b.toNat := by omega
      simp [h, ha, hb, this]
  · have : 8 ≤ a.toNat := by omega
    simp [h, ha, this]

/-- An instruction with one register operand: either the operand is legal, or the rule raises on it. -/
theorem rule_one {i : Instr} {a : Byte} (ho : i.registerOperands = [a])
    (hm : opcodeOf i ∈ registerOpcodes) (s : State) (f : Fin 8 → Except Raise State) :
    (∃ h : a.toNat < 8, i.firstBadRegister = none ∧
      (registerIndex a >>= f) = f ⟨a.toNat, h⟩) ∨
    ∃ e, Raises i s e ∧ (registerIndex a >>= f) = .error e := by
  by_cases ha : a.toNat < 8
  · exact .inl ⟨ha, by rw [firstBadRegister_one ho, if_pos ha], by rw [registerIndex_of_lt ha]; rfl⟩
  · have ha' : 8 ≤ a.toNat := by omega
    refine .inr ⟨.outOfBoundsReg a, .inl ⟨a, ?_, ha', hm, rfl⟩, ?_⟩
    · rw [firstBadRegister_one ho, if_neg ha]
    · rw [registerIndex_of_ge ha']; rfl

/-- ADD and MUL: either both operands are legal, or the rule raises on the first that is not. -/
theorem rule_two {i : Instr} {a b : Byte} (ho : i.registerOperands = [a, b])
    (hm : opcodeOf i ∈ registerOpcodes) (s : State) (op : AluOp) :
    (∃ (h : a.toNat < 8) (h' : b.toNat < 8), aluRule op a b s =
      (alu op ⟨a.toNat, h⟩ ⟨b.toNat, h'⟩ s >>= fun t => .ok (t.advancePc 3))) ∨
    ∃ e, Raises i s e ∧ aluRule op a b s = .error e := by
  unfold aluRule
  by_cases ha : a.toNat < 8
  · by_cases hb : b.toNat < 8
    · exact .inl ⟨ha, hb, by rw [registerIndex_of_lt ha, registerIndex_of_lt hb]; rfl⟩
    · have hb' : 8 ≤ b.toNat := by omega
      refine .inr ⟨.outOfBoundsReg b, .inl ⟨b, ?_, hb', hm, rfl⟩, ?_⟩
      · rw [firstBadRegister_two ho, if_pos ha, if_neg hb]
      · rw [registerIndex_of_lt ha, registerIndex_of_ge hb']; rfl
  · have ha' : 8 ≤ a.toNat := by omega
    refine .inr ⟨.outOfBoundsReg a, .inl ⟨a, ?_, ha', hm, rfl⟩, ?_⟩
    · rw [firstBadRegister_two ho, if_neg ha]
    · rw [registerIndex_of_ge ha']; rfl

/-- Every instruction either completes or takes the fault it raises; it answers nothing else. -/
theorem exec_answers (i : Instr) (s : State) :
    (∃ t, exec i s = .next t ∧ Completes i s t) ∨
    ∃ e, Raises i s e ∧ exec i s = .next (s.takeFault (some (opcodeOf i)) e) := by
  cases i with
  | ldi a b =>
    rcases rule_one (i := .ldi a b) rfl (by simp [opcodeOf, registerOpcodes, opcodeLdi]) s
      (fun i => .ok ((s.setReg i (immediate b)).advancePc 3)) with ⟨h, -, he⟩ | ⟨e, hr, he⟩
    · exact .inl ⟨_, congrArg (conclude (.ldi a b) s) he, h, rfl⟩
    · exact .inr ⟨e, hr, congrArg (conclude (.ldi a b) s) he⟩
  | prn a =>
    rcases rule_one (i := .prn a) rfl (by simp [opcodeOf, registerOpcodes, opcodePrn]) s
      (fun i => .ok ((s.emit (s.getReg i)).advancePc 2)) with ⟨h, -, he⟩ | ⟨e, hr, he⟩
    · exact .inl ⟨_, congrArg (conclude (.prn a) s) he, h, rfl⟩
    · exact .inr ⟨e, hr, congrArg (conclude (.prn a) s) he⟩
  | add a b =>
    rcases rule_two (i := .add a b) rfl (by simp [opcodeOf, registerOpcodes, opcodeAdd]) s .add
      with ⟨h, h', he⟩ | ⟨e, hr, he⟩
    · exact .inl ⟨_, congrArg (conclude (.add a b) s) he, h, h', rfl⟩
    · exact .inr ⟨e, hr, congrArg (conclude (.add a b) s) he⟩
  | mul a b =>
    rcases rule_two (i := .mul a b) rfl (by simp [opcodeOf, registerOpcodes, opcodeMul]) s .mul
      with ⟨h, h', he⟩ | ⟨e, hr, he⟩
    · exact .inl ⟨_, congrArg (conclude (.mul a b) s) he, h, h', rfl⟩
    · exact .inr ⟨e, hr, congrArg (conclude (.mul a b) s) he⟩
  | pop a =>
    rcases rule_one (i := .pop a) rfl (by simp [opcodeOf, registerOpcodes, opcodePop]) s
      (fun i => memRead s s.sp.toNat >>= fun v => .ok ((raiseSp (s.setReg i v)).advancePc 2))
      with ⟨h, -, he⟩ | ⟨e, hr, he⟩
    · have he' := he.trans (by rw [memRead_byte])
      exact .inl ⟨_, congrArg (conclude (.pop a) s) he', h, rfl⟩
    · exact .inr ⟨e, hr, congrArg (conclude (.pop a) s) he⟩
  | push a =>
    rcases rule_one (i := .push a) rfl (by simp [opcodeOf, registerOpcodes, opcodePush]) s
      (fun i => pushByte s (s.getReg i) >>= fun t => .ok (t.advancePc 2))
      with ⟨h, hb, he⟩ | ⟨e, hr, he⟩
    · by_cases hs : s.sp = 0#8
      · have he' := he.trans (by rw [pushByte_zero hs])
        exact .inr ⟨_, .inr ⟨hb, by simp [opcodeOf, pushOpcodes, opcodePush], hs, rfl⟩,
          congrArg (conclude (.push a) s) he'⟩
      · have he' := he.trans (by rw [pushByte_of_ne hs])
        exact .inl ⟨_, congrArg (conclude (.push a) s) he', h, hs, rfl⟩
    · exact .inr ⟨e, hr, congrArg (conclude (.push a) s) he⟩
  | call a =>
    rcases rule_one (i := .call a) rfl (by simp [opcodeOf, registerOpcodes, opcodeCall]) s
      (fun i => pushByte s (returnAddress s) >>= fun t => .ok (t.setPc (zext9 (s.getReg i))))
      with ⟨h, hb, he⟩ | ⟨e, hr, he⟩
    · by_cases hs : s.sp = 0#8
      · have he' := he.trans (by rw [pushByte_zero hs])
        exact .inr ⟨_, .inr ⟨hb, by simp [opcodeOf, pushOpcodes, opcodeCall], hs, rfl⟩,
          congrArg (conclude (.call a) s) he'⟩
      · have he' := he.trans (by rw [pushByte_of_ne hs])
        exact .inl ⟨_, congrArg (conclude (.call a) s) he', h, hs, rfl⟩
    · exact .inr ⟨e, hr, congrArg (conclude (.call a) s) he⟩
  | ret =>
    have he : exec .ret s = .next (s.setPc (zext9 (s.mem.read s.sp.toNat))) := by
      simp [exec, execRet]
    exact .inl ⟨_, he, rfl⟩
  | hlt => exact .inl ⟨_, rfl, rfl⟩

/-- Inversion: a next state of an instruction is its completion or the fault it raised. -/
theorem exec_cases {i : Instr} {s t : State} (h : exec i s = .next t) :
    Completes i s t ∨ ∃ e, Raises i s e ∧ t = s.takeFault (some (opcodeOf i)) e := by
  rcases exec_answers i s with ⟨u, hu, hc⟩ | ⟨e, hr, hu⟩
  · cases hu.symm.trans h; exact .inl hc
  · cases hu.symm.trans h; exact .inr ⟨e, hr, rfl⟩

/-- Inversion: a step leaves a terminal state as it is, or takes a fault of the fetch or of the decoder,
or executes the decoded instruction. -/
theorem step_cases {s t : State} (h : step s = .next t) :
    (s.terminal ∧ t = s) ∨
    (s.run = .running ∧ ∃ e, fetchDecode s = .error e ∧ t = s.takeFault e.opcode e.raised) ∨
    ∃ i, AboutToRun s i ∧ exec i s = .next t := by
  unfold step front at h
  cases hr : s.run with
  | halted => rw [hr] at h; cases h; exact .inl ⟨by simp [State.terminal, hr], rfl⟩
  | faulted => rw [hr] at h; cases h; exact .inl ⟨by simp [State.terminal, hr], rfl⟩
  | running =>
    rw [hr] at h
    cases hf : fetchDecode s with
    | error e => rw [hf] at h; cases h; exact .inr (.inl ⟨rfl, e, rfl, rfl⟩)
    | ok i =>
      rw [hf] at h
      by_cases hp : s.pc.toNat ≤ 0xFD
      · have hd : decode (fetchedAt s) = .ok i := by
          unfold fetchDecode at hf
          rw [fetch_of_le hp] at hf
          cases hd : decode (fetchedAt s) with
          | ok j => simp only [hd] at hf; cases hf; rfl
          | error e => rcases e with ⟨o⟩; simp only [hd] at hf; cases hf
        exact .inr (.inr ⟨i, ⟨hr, hp, hd⟩, h⟩)
      · have : ∃ e, fetch s = .error e := by
          by_cases hb : 0x100 ≤ s.pc.toNat
          · exact ⟨_, fetch_of_beyond hb⟩
          · exact ⟨_, fetch_of_last (by omega) (by omega)⟩
        obtain ⟨e, he⟩ := this
        rw [fetchDecode_of_fault he] at hf
        cases hf

end Sys2Proof.Machine
end

