-- ==== Sys2Proof/Laws/PerInstr.lean ====
section
/-! SUPPORT. A statement about every instruction as syntax, one lemma per constructor: its encoding is one
to three bytes, the opcode first, and that opcode is one of the nine (R50, R53). -/

namespace Sys2Proof.Laws.EncodingShape

def Statement (i : Instr) : Prop :=
  ∃ operands, encode i = opcodeOf i :: operands ∧ operands.length ≤ 2 ∧ opcodeOf i ∈ opcodeMap

theorem ldi (a b : Byte) : Statement (.ldi a b) := ⟨[a, b], rfl, by simp, by simp [opcodeOf, opcodeMap]⟩
theorem prn (a : Byte) : Statement (.prn a) := ⟨[a], rfl, by simp, by simp [opcodeOf, opcodeMap]⟩
theorem add (a b : Byte) : Statement (.add a b) := ⟨[a, b], rfl, by simp, by simp [opcodeOf, opcodeMap]⟩
theorem mul (a b : Byte) : Statement (.mul a b) := ⟨[a, b], rfl, by simp, by simp [opcodeOf, opcodeMap]⟩
theorem pop (a : Byte) : Statement (.pop a) := ⟨[a], rfl, by simp, by simp [opcodeOf, opcodeMap]⟩
theorem push (a : Byte) : Statement (.push a) := ⟨[a], rfl, by simp, by simp [opcodeOf, opcodeMap]⟩
theorem call (a : Byte) : Statement (.call a) := ⟨[a], rfl, by simp, by simp [opcodeOf, opcodeMap]⟩
theorem ret : Statement .ret := ⟨[], rfl, by simp, by simp [opcodeOf, opcodeMap]⟩
theorem hlt : Statement .hlt := ⟨[], rfl, by simp, by simp [opcodeOf, opcodeMap]⟩

end Sys2Proof.Laws.EncodingShape
end

