-- ==== Sys2Proof/Tests/Slice0.lean ====
section
/-! SUPPORT. The model's own tests: expected results come from the spec's examples and vectors
(95_test_vectors.md), each test one step; then a witness for the hypotheses of every statement. -/

namespace Sys2Proof.Tests

open Sys2Proof Sys2Proof.Machine

/-! ## Helpers -/

/-- A running core at `pc` with stack pointer `sp`, registers 7, 0x0B, 0xFF, 200, 100, 15, 0x20, 1, and
the given bytes from `start`. -/
def sample (pc : PcWord) (sp : Byte) (start : Nat) (bytes : List Byte) : State :=
  { State.reset with
    pc := pc
    sp := sp
    regs := #v[7#8, 0x0B#8, 0xFF#8, 200#8, 100#8, 15#8, 0x20#8, 1#8]
    mem := Memory.writeAll [] start bytes }

/-- The same core with bytes at its `pc`. -/
def code (pc : PcWord) (sp : Byte) (bytes : List Byte) : State := sample pc sp pc.toNat bytes

/-- The outcome is a next state that passes the test. -/
def nextIs (o : Host.Outcome State Fault Refusal) (p : State → Bool) : Bool :=
  match o with
  | .next t => p t
  | .fault _ => false
  | .refused _ => false

/-- Nothing but run and fault differs, and the record is the given one. -/
def faultIs (s t : State) (r : FaultRecord) : Bool :=
  decide (t = { s with run := .faulted, fault := some r })

/-! ## WellFormed: one ill-formed term for each register operand (R52, R56) -/

theorem test_wf_ldi : ¬ (Instr.ldi 8#8 1#8).WellFormed := by decide
theorem test_wf_ldi_immediate : (Instr.ldi 7#8 0xFF#8).WellFormed := by decide
theorem test_wf_prn : ¬ (Instr.prn 8#8).WellFormed := by decide
theorem test_wf_add_a : ¬ (Instr.add 8#8 0#8).WellFormed := by decide
theorem test_wf_add_b : ¬ (Instr.add 0#8 9#8).WellFormed := by decide
theorem test_wf_mul_a : ¬ (Instr.mul 0xFF#8 0#8).WellFormed := by decide
theorem test_wf_mul_b : ¬ (Instr.mul 7#8 8#8).WellFormed := by decide
theorem test_wf_pop : ¬ (Instr.pop 8#8).WellFormed := by decide
theorem test_wf_push : ¬ (Instr.push 0x80#8).WellFormed := by decide
theorem test_wf_call : ¬ (Instr.call 0x10#8).WellFormed := by decide

/-! ## Decode: words written out from the binary column of R53 -/

theorem test_decode_ldi :
    decode ⟨0b10000010#8, 0b00000000#8, 0b00001000#8⟩ = .ok (.ldi 0#8 8#8) := by decide
theorem test_decode_prn :
    decode ⟨0b01000111#8, 0b00000011#8, 0b11111111#8⟩ = .ok (.prn 3#8) := by decide
theorem test_decode_add :
    decode ⟨0b10100000#8, 0b00000001#8, 0b00000010#8⟩ = .ok (.add 1#8 2#8) := by decide
theorem test_decode_mul :
    decode ⟨0b10100010#8, 0b00000101#8, 0b00000001#8⟩ = .ok (.mul 5#8 1#8) := by decide
theorem test_decode_pop :
    decode ⟨0b01000110#8, 0b00000110#8, 0b00000000#8⟩ = .ok (.pop 6#8) := by decide
theorem test_decode_push :
    decode ⟨0b01000101#8, 0b00000111#8, 0b00000000#8⟩ = .ok (.push 7#8) := by decide
theorem test_decode_call :
    decode ⟨0b01010000#8, 0b00000001#8, 0b00000000#8⟩ = .ok (.call 1#8) := by decide
theorem test_decode_ret :
    decode ⟨0b00010001#8, 0b10101010#8, 0b01010101#8⟩ = .ok .ret := by decide
theorem test_decode_hlt :
    decode ⟨0b00000001#8, 0b11111111#8, 0b11111111#8⟩ = .ok .hlt := by decide

/-- V5, V6, V7: 0x00, 0x80 and 0xA1 are illegal (R51, R55). -/
theorem test_decode_illegal :
    decode ⟨0x00#8, 0#8, 0#8⟩ = .error (.invalidOpcode 0x00#8) ∧
    decode ⟨0x80#8, 0#8, 0#8⟩ = .error (.invalidOpcode 0x80#8) ∧
    decode ⟨0xA1#8, 0#8, 1#8⟩ = .error (.invalidOpcode 0xA1#8) := by decide

/-- An operand byte is taken whole, never reduced to three bits (R52). -/
theorem test_decode_keeps_operand_bits :
    decode ⟨0x47#8, 0xFF#8, 0#8⟩ = .ok (.prn 0xFF#8) := by decide

theorem test_table_word : decodeTableWord 24 0x080082 = some (.ldi 0#8 8#8) := by decide

/-- A placed word is what the next step runs, from reset: LDI reg5, 0x2A. -/
theorem test_with_fetch_word :
    nextIs (step (State.reset.withFetchWord 24 0x2A0582))
      (fun t => t.getReg 5 == 0x2A#8 && t.pc == 3#9) = true := by decide

/-! ## The cycle (R65, R66, R67, R68) -/

/-- V1: HLT at 0xFD halts and leaves `pc`. -/
theorem test_hlt_at_fd :
    nextIs (step (code 0xFD#9 0xF3#8 [0x01#8]))
      (fun t => t.run == .halted && t.pc == 0xFD#9 && t.fault == none) = true := by decide

/-- V2: HLT at 0xFE faults at fetch. -/
theorem test_hlt_at_fe :
    nextIs (step (code 0xFE#9 0xF3#8 [0x01#8]))
      (fun t => faultIs (code 0xFE#9 0xF3#8 [0x01#8]) t
        ⟨.outOfBounds, 0xFE#9, some 0x01#8, some .mem, 0x100⟩) = true := by decide

/-- V3. -/
theorem test_prn_at_ff :
    nextIs (step (code 0xFF#9 0xF3#8 [0x47#8]))
      (fun t => faultIs (code 0xFF#9 0xF3#8 [0x47#8]) t
        ⟨.outOfBounds, 0xFF#9, some 0x47#8, some .mem, 0x100⟩) = true := by decide

/-- V4: the opcode byte itself cannot be read. -/
theorem test_fetch_at_100 :
    nextIs (step (code 0x100#9 0xF3#8 []))
      (fun t => faultIs (code 0x100#9 0xF3#8 []) t
        ⟨.outOfBounds, 0x100#9, none, some .mem, 0x100⟩) = true := by decide

/-- S2: opcode 0xFF at address 0. -/
theorem test_invalid_opcode :
    nextIs (step (code 0#9 0xF3#8 [0xFF#8]))
      (fun t => faultIs (code 0#9 0xF3#8 [0xFF#8]) t
        ⟨.invalidOpcode, 0#9, some 0xFF#8, none, 0xFF⟩ && exitStatus t == some 1) = true := by decide

/-- V8, V9: terminal states do not change. -/
theorem test_terminal :
    nextIs (step { code 0#9 0xF3#8 [0x82#8, 0#8, 8#8] with run := .halted })
      (fun t => t == { code 0#9 0xF3#8 [0x82#8, 0#8, 8#8] with run := .halted }) = true ∧
    nextIs (step { code 0#9 0xF3#8 [0x82#8, 0#8, 8#8] with run := .faulted })
      (fun t => t == { code 0#9 0xF3#8 [0x82#8, 0#8, 8#8] with run := .faulted }) = true := by decide

/-! ## LDI, PRN -/

/-- V10: LDI at 0xFD leaves `pc = 0x100`. -/
theorem test_ldi_at_fd :
    nextIs (step (code 0xFD#9 0xF3#8 [0x82#8, 3#8, 0x55#8]))
      (fun t => t.getReg 3 == 0x55#8 && t.pc == 0x100#9) = true := by decide

/-- V22. -/
theorem test_ldi_bad_register :
    nextIs (step (code 0x10#9 0xF3#8 [0x82#8, 8#8, 1#8]))
      (fun t => faultIs (code 0x10#9 0xF3#8 [0x82#8, 8#8, 1#8]) t
        ⟨.outOfBounds, 0x10#9, some 0x82#8, some .reg, 8⟩) = true := by decide

/-- V24: the emitted byte is the unsigned register value, appended last. -/
theorem test_prn :
    nextIs (step { code 0x10#9 0xF3#8 [0x47#8, 2#8] with out := [1#8] })
      (fun t => t.out == [1#8, 0xFF#8] && t.pc == 0x12#9) = true := by decide

/-- V26: nothing is emitted. -/
theorem test_prn_bad_register :
    nextIs (step (code 0x10#9 0xF3#8 [0x47#8, 8#8]))
      (fun t => t.out == [] && t.run == .faulted) = true := by decide

/-! ## ADD, MUL -/

/-- V30: 200 + 100 = 44, the second register kept. -/
theorem test_add_wraps :
    nextIs (step (code 0x20#9 0xF3#8 [0xA0#8, 3#8, 4#8]))
      (fun t => t.getReg 3 == 44#8 && t.getReg 4 == 100#8 && t.pc == 0x23#9) = true := by decide

/-- V49: `b` out of range. -/
theorem test_add_bad_b :
    nextIs (step (code 0x20#9 0xF3#8 [0xA0#8, 1#8, 9#8]))
      (fun t => faultIs (code 0x20#9 0xF3#8 [0xA0#8, 1#8, 9#8]) t
        ⟨.outOfBounds, 0x20#9, some 0xA0#8, some .reg, 9⟩) = true := by decide

/-- V46: MUL with one register squares it. -/
theorem test_mul_same_register :
    nextIs (step (code 0x20#9 0xF3#8 [0xA2#8, 5#8, 5#8]))
      (fun t => t.getReg 5 == 225#8 && t.pc == 0x23#9) = true := by decide

/-- V50: `a` is checked before `b`. -/
theorem test_mul_bad_a_first :
    nextIs (step (code 0x20#9 0xF3#8 [0xA2#8, 8#8, 9#8]))
      (fun t => faultIs (code 0x20#9 0xF3#8 [0xA2#8, 8#8, 9#8]) t
        ⟨.outOfBounds, 0x20#9, some 0xA2#8, some .reg, 8⟩) = true := by decide

/-! ## PUSH, POP -/

/-- V60. -/
theorem test_push :
    nextIs (step (code 0x30#9 0xF3#8 [0x45#8, 0#8]))
      (fun t => t.sp == 0xF2#8 && t.mem.read 0xF2 == 7#8 && t.pc == 0x32#9) = true := by decide

/-- V64: the register check comes before the stack check. -/
theorem test_push_bad_register_first :
    nextIs (step (code 0x30#9 0#8 [0x45#8, 9#8]))
      (fun t => faultIs (code 0x30#9 0#8 [0x45#8, 9#8]) t
        ⟨.outOfBounds, 0x30#9, some 0x45#8, some .reg, 9⟩) = true := by decide

/-- V66: the popped byte stays in its cell. -/
theorem test_pop :
    nextIs (exec (.pop 1#8) (sample 0x30#9 0xF2#8 0xF2 [9#8]))
      (fun t => t.getReg 1 == 9#8 && t.sp == 0xF3#8 && t.mem.read 0xF2 == 9#8 && t.pc == 0x32#9)
      = true := by decide

/-- V68: `sp` is held at 0xFF. -/
theorem test_pop_at_top :
    nextIs (exec (.pop 1#8) (sample 0x30#9 0xFF#8 0xFF [9#8]))
      (fun t => t.getReg 1 == 9#8 && t.sp == 0xFF#8 && t.pc == 0x32#9) = true := by decide

/-! ## CALL, RET -/

/-- V81: the largest return address. -/
theorem test_call_at_fd :
    nextIs (step (code 0xFD#9 0x10#8 [0x50#8, 6#8]))
      (fun t => t.sp == 0x0F#8 && t.mem.read 0x0F == 0xFF#8 && t.pc == 0x20#9) = true := by decide

/-- V82. -/
theorem test_call_underflow :
    nextIs (step (code 6#9 0#8 [0x50#8, 0#8]))
      (fun t => faultIs (code 6#9 0#8 [0x50#8, 0#8]) t
        ⟨.stackUnderflow, 6#9, some 0x50#8, none, 0⟩) = true := by decide

/-- V88: RET at `sp = 0xFF`; `sp` is not changed. -/
theorem test_ret :
    nextIs (exec .ret (sample 0x0E#9 0xFF#8 0xFF [0x40#8]))
      (fun t => t.pc == 0x40#9 && t.sp == 0xFF#8) = true := by decide

/-- V86: the return address stays on the stack. -/
theorem test_ret_does_not_pop :
    nextIs (exec .ret (sample 0x0E#9 0xF2#8 0xF2 [8#8]))
      (fun t => t.pc == 8#9 && t.sp == 0xF2#8 && t.mem.read 0xF2 == 8#8) = true := by decide

/-! ## Load and the canonical form of memory -/

/-- R142: an image goes to the cells from 0; a zero byte, which an unlisted cell holds, is not listed. -/
theorem test_load :
    nextIs (loadImage [0x82#8, 0#8, 8#8] State.reset)
      (fun t => t.mem == [(0, 0x82#8), (2, 8#8)]) = true := by decide

/-- Writing what an unlisted cell holds removes the entry. -/
theorem test_memory_canonical :
    Memory.write [(1, 5#8), (3, 6#8)] 1 0#8 = [(3, 6#8)] ∧
    Memory.write [(1, 5#8), (3, 6#8)] 2 9#8 = [(1, 5#8), (2, 9#8), (3, 6#8)] := by decide

/-! ## Witnesses: for each statement with hypotheses, a concrete case that meets all of them, one for
each of its clauses, at a boundary value where there is one -/

/-- Reset parameters that are not all zero. -/
def params : Config.ResetParams :=
  { regReset := fun _ => 0xAA#8, memReset := fun i => BitVec.ofNat 8 i, flReset := 5#8 }

theorem witness_ResetSetsEveryPieceOfState : (255 : Nat) < 256 := by decide

theorem witness_LoadCopiesTheImageFromZero :
    (List.replicate 256 (1#8 : Byte)).length ≤ 256 ∧
    256 < (List.replicate 257 (1#8 : Byte)).length ∧
    (Platform.construct params).phase = .awaitingLoad := by
  exact ⟨List.length_replicate.le, by rw [List.length_replicate]; decide, rfl⟩

theorem witness_HostActionsKeepTheBootOrder :
    (Platform.mk .started (code 0#9 0xF3#8 [0x01#8])).phase ≠ .awaitingLoad ∧
    (Platform.mk .loaded (code 0#9 0xF3#8 [0x01#8])).phase ≠ .awaitingLoad ∧
    (Platform.mk .awaitingLoad (code 0#9 0xF3#8 [0x01#8])).phase = .awaitingLoad ∧
    nextIs (step (code 0#9 0xF3#8 [0x01#8])) (fun _ => true) = true ∧
    ([] : List Byte).length ≤ 256 := by decide

theorem witness_OnlyResetLeavesAnEndedRun :
    State.terminal { State.reset with run := .halted } ∧ HostAction.step ≠ HostAction.reset ∧
    ∃ h', Platform.act params .step ⟨.started, { State.reset with run := .halted }⟩ = .next h' :=
  ⟨by decide, by decide, _, rfl⟩

theorem witness_ExitStatusTellsHowTheRunEnded :
    State.reset.run = .running ∧
    (State.reset.setRun .halted).run = .halted ∧
    (State.reset.faultedWith .invalidOpcode (some 0#8) none 0).run = .faulted ∧
    ((State.reset.faultedWith .invalidOpcode (some 0#8) none 0).fault.map (fun r => r.cause)) =
      some .invalidOpcode := by decide

/-- Also for `StepFollowsTheCycle` (its three clauses), `UnlistedOpcodeRaisesInvalidOpcode`,
`RunStateTransitions` and `RunningStepHaltsFaultsOrExecutes`. -/
theorem witness_StepRunsTheDecodedInstruction :
    (code 0xFD#9 0xF3#8 [0x01#8]).run = .running ∧ (code 0xFD#9 0xF3#8 [0x01#8]).pc.toNat ≤ 0xFD ∧
    decode (fetchedAt (code 0xFD#9 0xF3#8 [0x01#8])) = .ok .hlt ∧
    (code 0xFD#9 0xF3#8 [0x01#8]).mem.read 0xFD = 0x01#8 ∧
    (code 0xFD#9 0xF3#8 [0x00#8]).mem.read 0xFD ∉ opcodeMap ∧
    (code 0xFD#9 0xF3#8 [0x11#8]).mem.read 0xFD ∈ opcodeMap ∧
    (State.reset.setRun .halted).run ≠ .running := by decide

theorem witness_FetchReadsThreeBytesOrFaults :
    (code 0xFD#9 0xF3#8 [0x01#8]).pc.toNat ≤ 0xFD ∧
    (code 0xFE#9 0xF3#8 [0x01#8]).run = .running ∧ 0xFE ≤ (code 0xFE#9 0xF3#8 [0x01#8]).pc.toNat ∧
    (code 0x100#9 0xF3#8 []).pc.toNat ≤ 0x100 := by decide

theorem witness_RunStateTransitions :
    (∃ t, step (code 0xFD#9 0xF3#8 [0x01#8]) = .next t ∧ t.run = .halted) ∧
    (∃ t, step (code 0xFE#9 0xF3#8 [0x01#8]) = .next t ∧ t.run = .faulted) ∧
    (∃ t, step (code 0xFD#9 0xF3#8 [0x11#8]) = .next t ∧ t.run = .running) ∧
    (∃ t, step (State.reset.setRun .halted) = .next t) ∧
    ∃ t, step (State.reset.setRun .faulted) = .next t :=
  ⟨⟨_, rfl, rfl⟩, ⟨_, rfl, rfl⟩, ⟨_, rfl, rfl⟩, ⟨_, rfl⟩, ⟨_, rfl⟩⟩

theorem witness_TerminalStatesAbsorbEveryRun :
    State.terminal (State.reset.setRun .halted) ∧ State.terminal (State.reset.setRun .faulted) := by
  decide

/-- The hypotheses of `LdiLoadsItsImmediate`, `PrnEmitsItsRegister`, `AddWrapsModulo256`,
`MulKeepsTheLowByte` and `PopLoadsTheTop`: legal operands at `pc = 0xFD`, an illegal `a`, an illegal `b`
after a legal `a`. -/
theorem witness_RegisterInstructions :
    (7#8 : Byte).toNat < 8 ∧ 8 ≤ (8#8 : Byte).toNat ∧ 8 ≤ (0xFF#8 : Byte).toNat ∧
    (code 0xFD#9 0xF3#8 []).pc.toNat ≤ 0xFD := by decide

/-- The hypotheses of `fetchFaultsOn`, for each of the nine opcodes, at 0xFE and at 0xFF. -/
theorem witness_fetchFaultsOn :
    ∀ o ∈ opcodeMap,
      (code 0xFE#9 0xF3#8 [o]).run = .running ∧ 0xFE ≤ (code 0xFE#9 0xF3#8 [o]).pc.toNat ∧
      (code 0xFE#9 0xF3#8 [o]).mem.read (code 0xFE#9 0xF3#8 [o]).pc.toNat = o ∧
      (code 0xFF#9 0xF3#8 [o]).pc.toNat ≤ 0xFF ∧
      (code 0xFF#9 0xF3#8 [o]).mem.read (code 0xFF#9 0xF3#8 [o]).pc.toNat = o := by decide

/-- The hypotheses of `PushStoresBelowTheTop`, `CallPushesReturnAddressAndJumps`,
`PushAtZeroRaisesStackUnderflow` and `PushThenPopRoundTrips`: `sp` at 1 and at 0. -/
theorem witness_PushingInstructions :
    (7#8 : Byte).toNat < 8 ∧ (code 0xFD#9 1#8 []).pc.toNat ≤ 0xFD ∧ (code 0xFD#9 1#8 []).sp ≠ 0#8 ∧
    (code 0xFD#9 0xFF#8 []).sp ≠ 0#8 ∧ (code 0xFD#9 0#8 []).sp = 0#8 := by decide

theorem witness_FirstBadRegisterIndexIsRecorded :
    (Instr.ldi 8#8 0#8).firstBadRegister = some 8#8 ∧
    (Instr.add 8#8 9#8).firstBadRegister = some 8#8 ∧
    (Instr.mul 7#8 0xFF#8).firstBadRegister = some 0xFF#8 ∧
    (Instr.call 0xFF#8).firstBadRegister = some 0xFF#8 := by decide

/-- One cycle for each row of the priority order, and one that faults for none of them; also the
hypotheses of `FaultsArePrecise` and `OnlyTableFaultsAreRecorded`. -/
theorem witness_FaultsFollowThePriorityOrder :
    (expectedFault (code 0x100#9 0#8 []) = some (.outOfBounds, some .mem, 0x100) ∧
      nextIs (step (code 0x100#9 0#8 [])) (fun t => t.run == .faulted) = true) ∧
    (expectedFault (code 0xFD#9 0#8 [0#8]) = some (.invalidOpcode, none, 0) ∧
      nextIs (step (code 0xFD#9 0#8 [0#8])) (fun t => t.run == .faulted) = true) ∧
    (expectedFault (code 0xFD#9 0#8 [0x45#8, 9#8]) = some (.outOfBounds, some .reg, 9) ∧
      nextIs (step (code 0xFD#9 0#8 [0x45#8, 9#8])) (fun t => t.run == .faulted) = true) ∧
    (expectedFault (code 0xFD#9 0#8 [0x50#8, 7#8]) = some (.stackUnderflow, none, 0) ∧
      nextIs (step (code 0xFD#9 0#8 [0x50#8, 7#8])) (fun t => t.run == .faulted) = true) ∧
    (expectedFault (code 0xFD#9 1#8 [0x50#8, 7#8]) = none ∧
      nextIs (step (code 0xFD#9 1#8 [0x50#8, 7#8])) (fun t => t.run == .running) = true) := by decide

theorem witness_AluWritesItsFirstRegisterOnly :
    (∃ t, alu .add 5 5 State.reset = .ok t) ∧ ∃ t, alu .mul 5 5 State.reset = .ok t :=
  ⟨⟨_, rfl⟩, ⟨_, rfl⟩⟩

theorem witness_MemoryAccessesAreBoundsChecked : (0xFF : Nat) ≤ 0xFF ∧ 0xFF < (0x100 : Nat) := by
  decide

/-- The hypotheses of the five frames: each instruction answers a next state, completing (first) and,
where it can, raising (second). -/
theorem witness_Frames :
    (∀ i ∈ [Instr.ldi 7#8 1#8, .add 7#8 0#8, .mul 0#8 7#8, .prn 7#8, .pop 7#8, .push 7#8, .call 7#8,
        .ret], nextIs (exec i (code 0xFD#9 1#8 [])) (fun t => t.run == .running) = true) ∧
    (∀ i ∈ [Instr.ldi 8#8 1#8, .add 7#8 8#8, .mul 8#8 7#8, .prn 8#8, .pop 8#8, .push 8#8, .call 8#8],
        nextIs (exec i (code 0xFD#9 1#8 [])) (fun t => t.run == .faulted) = true) ∧
    nextIs (exec .hlt (code 0xFD#9 1#8 [])) (fun t => t.run == .halted) = true := by decide

/-- PRN emits, RET does not; both steps answer a next state (`OnlyPrnExtendsTheOutput`,
`FlagsAreNeitherReadNorWritten`). -/
theorem witness_OnlyPrnExtendsTheOutput :
    nextIs (step (code 0#9 0xF3#8 [0x47#8, 3#8])) (fun t => t.out == [200#8]) = true ∧
    nextIs (step (code 0#9 0xF3#8 [0x11#8])) (fun t => t.out == []) = true := by decide

theorem witness_RegistersAreUsedAsTabulated :
    (¬ writesRegister (.add 0#8 1#8) 1 ∧
      nextIs (exec (.add 0#8 1#8) (code 0#9 0xF3#8 [])) (fun _ => true) = true) ∧
    (¬ readsRegister (.ldi 7#8 0#8) 7 ∧ writesRegister (.ldi 7#8 0#8) 7) ∧
    (¬ readsRegister (.pop 0#8) 0 ∧ writesRegister (.pop 0#8) 0) ∧
    (¬ readsRegister (.push 0#8) 7 ∧ ¬ writesRegister (.push 0#8) 7) := by
  simp [readsRegister, writesRegister]; decide

/-- A push, a pop and neither (`StackPointerMovesByOneAndNeverWraps`), and a changed byte
(`OnlyPushAndCallWriteMemory`). -/
theorem witness_StackPointerMovesByOneAndNeverWraps :
    nextIs (step (code 0x30#9 1#8 [0x45#8, 0#8]))
      (fun t => t.sp == 0#8 && t.mem.read 0 != (code 0x30#9 1#8 [0x45#8, 0#8]).mem.read 0) = true ∧
    nextIs (step (code 0x30#9 0xFE#8 [0x46#8, 0#8])) (fun t => t.sp == 0xFF#8) = true ∧
    nextIs (step (code 0x30#9 0xFE#8 [0x11#8])) (fun t => t.sp == 0xFE#8) = true := by decide

theorem witness_TopBoundaryIsIdempotent :
    (7#8 : Byte).toNat < 8 ∧ (code 0xFD#9 0xFF#8 []).pc.toNat ≤ 0xFD ∧
    (code 0xFD#9 0xFF#8 []).sp = 0xFF#8 ∧
    nextIs (step (code 0x30#9 0xFF#8 [0x45#8, 0#8])) (fun _ => true) = true := by decide

/-- V65: a PUSH onto the next instruction; and a CALL to the byte it stores. -/
theorem witness_StoredByteIsFetchedNext :
    (decode (fetchedAt (code 0x30#9 0x33#8 [0x45#8, 7#8])) = .ok (.push 7#8) ∧
      nextIs (step (code 0x30#9 0x33#8 [0x45#8, 7#8]))
        (fun t => t.pc.toNat == pushAddress (code 0x30#9 0x33#8 [0x45#8, 7#8]) &&
          decide (t.pc.toNat ≤ 0xFD)) = true) ∧
    (decode (fetchedAt (code 0x30#9 0x21#8 [0x50#8, 6#8])) = .ok (.call 6#8) ∧
      nextIs (step (code 0x30#9 0x21#8 [0x50#8, 6#8]))
        (fun t => t.pc.toNat == pushAddress (code 0x30#9 0x21#8 [0x50#8, 6#8]) &&
          decide (t.pc.toNat ≤ 0xFD)) = true) := by decide

/-- Lengths 3 and 2, completing at `pc = 0xFD`. -/
theorem witness_InstructionLengthIsThePcAdvance :
    ∀ i ∈ [Instr.ldi 0#8 0#8, .prn 0#8], 2 ≤ lengthOf i ∧ opcodeOf i ≠ 0x50#8 ∧
      nextIs (exec i (code 0xFD#9 1#8 [])) (fun t => t.run == .running) = true := by decide

theorem witness_LdiThenPrnEmitsTheImmediate :
    (code 0xFA#9 0xF3#8 [0x82#8, 7#8, 0xFF#8, 0x47#8, 7#8]).run = .running ∧
    (code 0xFA#9 0xF3#8 [0x82#8, 7#8, 0xFF#8, 0x47#8, 7#8]).pc.toNat ≤ 0xFA ∧
    (List.range 5).map (fun k =>
      (code 0xFA#9 0xF3#8 [0x82#8, 7#8, 0xFF#8, 0x47#8, 7#8]).mem.read (0xFA + k)) =
      [0x82#8, 7#8, 0xFF#8, 0x47#8, 7#8] := by decide

theorem witness_ArithmeticThenPrnEmitsTheWrappedResult :
    (List.range 5).map (fun k =>
      (code 0xFA#9 0xF3#8 [0xA0#8, 3#8, 4#8, 0x47#8, 3#8]).mem.read (0xFA + k)) =
      [0xA0#8, 3#8, 4#8, 0x47#8, 3#8] ∧
    (List.range 5).map (fun k =>
      (code 0xFA#9 0xF3#8 [0xA2#8, 3#8, 3#8, 0x47#8, 3#8]).mem.read (0xFA + k)) =
      [0xA2#8, 3#8, 3#8, 0x47#8, 3#8] := by decide

/-- A CALL answers a next state, and the state it leaves meets the hypotheses on `u` itself. -/
theorem witness_RetResumesAfterTheCall :
    (7#8 : Byte).toNat < 8 ∧ (code 0xFD#9 1#8 []).pc.toNat ≤ 0xFD ∧ (code 0xFD#9 1#8 []).sp ≠ 0#8 ∧
    nextIs (exec (.call 7#8) (code 0xFD#9 1#8 [])) (fun _ => true) = true := by decide

theorem witness_SecondRetGoesNowhereNew :
    nextIs (exec .ret (sample 0x0E#9 0xF2#8 0xF2 [8#8])) (fun _ => true) = true := by decide

theorem witness_UnpoppedPushesExhaustTheStack :
    (∀ i ∈ List.replicate 243 (Instr.push 0#8),
      ∃ a : Byte, a.toNat < 8 ∧ (i = .push a ∨ i = .call a)) ∧
    (List.replicate 243 (Instr.push 0#8)).length = 243 ∧
    (List.replicate 243 (Instr.push 0#8)).length ≤ (code 0#9 0xF3#8 []).sp.toNat ∧
    (code 0#9 0xF3#8 []).sp = 0xF3#8 := by
  refine ⟨?_, List.length_replicate, ?_, rfl⟩
  · intro i hi
    exact ⟨0#8, by decide, .inl (List.eq_of_mem_replicate hi)⟩
  · rw [List.length_replicate]; decide

/-- A state that meets the invariant and is not reset, and a step from it; the state is also one of those
whose fault code is 0 in `OnlyTableFaultsAreRecorded`. -/
theorem witness_StepKeepsTheInvariant :
    (code 0xFD#9 0#8 [0x50#8, 7#8]).Inv ∧ (code 0xFD#9 0#8 [0x50#8, 7#8]).safe ∧
    nextIs (step (code 0xFD#9 0#8 [0x50#8, 7#8])) (fun t => t.run == .faulted) = true := by
  refine ⟨⟨by decide, by decide, fun _ => rfl, fun h => ?_, fun h => ?_⟩, by decide, by decide⟩ <;> cases h

theorem witness_ReachableCoresMeetInvariant : Reachable params (Platform.construct params) :=
  Reachable.construct

end Sys2Proof.Tests
end

section
/-! PROOFS. The state family (10_state.md). First the layer the obligations rest on: what an instruction
leaves unchanged, when two states are fetched alike, and which pieces of state no step reads. -/

namespace Sys2Proof.Machine

/-! ## Opcodes that name an instruction -/

theorem opcodeOf_mem_pushOpcodes {i : Instr} :
    opcodeOf i ∈ pushOpcodes ↔ ∃ a, i = .push a ∨ i = .call a := by
  cases i <;>
    simp [opcodeOf, pushOpcodes, opcodeLdi, opcodePrn, opcodeAdd, opcodeMul, opcodePop, opcodePush,
      opcodeCall, opcodeRet, opcodeHlt]

theorem opcodeOf_eq_hlt {i : Instr} : opcodeOf i = 0x01#8 ↔ i = .hlt := by
  cases i <;>
    simp [opcodeOf, opcodeLdi, opcodePrn, opcodeAdd, opcodeMul, opcodePop, opcodePush, opcodeCall,
      opcodeRet, opcodeHlt]

/-- The opcode byte of the instruction about to run is the byte at `pc`. -/
theorem AboutToRun.read_pc {s : State} {i : Instr} (h : AboutToRun s i) :
    s.mem.read s.pc.toNat = opcodeOf i := decode_opcode h.decoded

/-! ## The frame of an instruction, completed or faulted -/

/-- What `i` leaves of `s` in `t`, by R12's table and the effects of R81 to R102: nothing but a push
touches memory, nothing but a push or POP touches `sp`, nothing but PRN touches `out`. -/
structure Frame (i : Instr) (s t : State) : Prop where
  fl : t.fl = s.fl
  out : (∀ a, i ≠ .prn a) → t.out = s.out
  sp : opcodeOf i ∉ pushOpcodes → (∀ a, i ≠ .pop a) → t.sp = s.sp
  mem : opcodeOf i ∉ pushOpcodes → t.mem = s.mem
  reg : ∀ k, ¬ writesRegister i k → t.getReg k = s.getReg k

theorem frame_takeFault (i : Instr) (s : State) (o : Option Byte) (e : Raise) :
    Frame i s (s.takeFault o e) :=
  ⟨rfl, fun _ => rfl, fun _ _ => rfl, fun _ => rfl, fun _ _ => rfl⟩

/-- A register whose index is not the operand is not the one written. -/
theorem getReg_setReg_of_operand_ne {s : State} {a : Byte} {k : Fin 8} (h : a.toNat < 8) (v : Byte)
    (hk : a.toNat ≠ k.val) : (s.setReg ⟨a.toNat, h⟩ v).getReg k = s.getReg k :=
  State.getReg_setReg_of_ne s v fun e => hk (congrArg Fin.val e).symm

theorem Completes.frame {i : Instr} {s t : State} (h : Completes i s t) : Frame i s t := by
  cases i with
  | ldi a b =>
    obtain ⟨ha, rfl⟩ := h
    exact ⟨rfl, fun _ => rfl, fun _ _ => rfl, fun _ => rfl,
      fun _ => getReg_setReg_of_operand_ne ha _⟩
  | prn a =>
    obtain ⟨ha, rfl⟩ := h
    exact ⟨rfl, fun hi => absurd rfl (hi a), fun _ _ => rfl, fun _ => rfl, fun _ _ => rfl⟩
  | add a b =>
    obtain ⟨ha, hb, rfl⟩ := h
    exact ⟨rfl, fun _ => rfl, fun _ _ => rfl, fun _ => rfl,
      fun _ => getReg_setReg_of_operand_ne ha _⟩
  | mul a b =>
    obtain ⟨ha, hb, rfl⟩ := h
    exact ⟨rfl, fun _ => rfl, fun _ _ => rfl, fun _ => rfl,
      fun _ => getReg_setReg_of_operand_ne ha _⟩
  | pop a =>
    obtain ⟨ha, rfl⟩ := h
    rw [raiseSp_eq_setSp]
    exact ⟨rfl, fun _ => rfl, fun _ hi => absurd rfl (hi a), fun _ => rfl,
      fun _ => getReg_setReg_of_operand_ne ha _⟩
  | push a =>
    obtain ⟨ha, hs, rfl⟩ := h
    have hp : opcodeOf (.push a) ∈ pushOpcodes := opcodeOf_mem_pushOpcodes.mpr ⟨a, .inl rfl⟩
    exact ⟨rfl, fun _ => rfl, fun hi => absurd hp hi, fun hi => absurd hp hi, fun _ _ => rfl⟩
  | call a =>
    obtain ⟨ha, hs, rfl⟩ := h
    have hp : opcodeOf (.call a) ∈ pushOpcodes := opcodeOf_mem_pushOpcodes.mpr ⟨a, .inr rfl⟩
    exact ⟨rfl, fun _ => rfl, fun hi => absurd hp hi, fun hi => absurd hp hi, fun _ _ => rfl⟩
  | ret =>
    cases h
    exact ⟨rfl, fun _ => rfl, fun _ _ => rfl, fun _ => rfl, fun _ _ => rfl⟩
  | hlt =>
    cases h
    exact ⟨rfl, fun _ => rfl, fun _ _ => rfl, fun _ => rfl, fun _ _ => rfl⟩

theorem exec_frame {i : Instr} {s t : State} (h : exec i s = .next t) : Frame i s t := by
  rcases exec_cases h with hc | ⟨e, -, rfl⟩
  · exact hc.frame
  · exact frame_takeFault i s _ e

/-- A completed instruction writes no fault record, and only HLT leaves Running. -/
theorem Completes.run_fault {i : Instr} {s t : State} (h : Completes i s t) :
    t.run = (if i = .hlt then .halted else s.run) ∧ t.fault = s.fault := by
  cases i with
  | ldi a b => obtain ⟨ha, rfl⟩ := h; exact ⟨rfl, rfl⟩
  | prn a => obtain ⟨ha, rfl⟩ := h; exact ⟨rfl, rfl⟩
  | add a b => obtain ⟨ha, hb, rfl⟩ := h; exact ⟨rfl, rfl⟩
  | mul a b => obtain ⟨ha, hb, rfl⟩ := h; exact ⟨rfl, rfl⟩
  | pop a => obtain ⟨ha, rfl⟩ := h; rw [raiseSp_eq_setSp]; exact ⟨rfl, rfl⟩
  | push a => obtain ⟨ha, hs, rfl⟩ := h; exact ⟨rfl, rfl⟩
  | call a => obtain ⟨ha, hs, rfl⟩ := h; exact ⟨rfl, rfl⟩
  | ret => cases h; exact ⟨rfl, rfl⟩
  | hlt => cases h; exact ⟨rfl, rfl⟩

/-- An instruction other than HLT leaves run and fault alone, or it takes a fault in `s` itself. -/
theorem exec_run_fault {i : Instr} {s t : State} (hi : i ≠ .hlt) (h : exec i s = .next t) :
    (t.run = s.run ∧ t.fault = s.fault) ∨ ∃ o e, t = s.takeFault o e := by
  rcases exec_cases h with hc | ⟨e, -, rfl⟩
  · exact .inl (by simpa [hi] using hc.run_fault)
  · exact .inr ⟨_, e, rfl⟩

/-- PUSH and CALL complete only above the bottom of memory, and store one byte below the old top. -/
theorem Completes.push {i : Instr} {s t : State} (h : Completes i s t)
    (hi : opcodeOf i ∈ pushOpcodes) :
    s.sp ≠ 0#8 ∧ t.sp = s.sp - 1#8 ∧ ∃ v, t.mem = s.mem.write (pushAddress s) v := by
  obtain ⟨a, rfl | rfl⟩ := opcodeOf_mem_pushOpcodes.mp hi
  · obtain ⟨ha, hs, rfl⟩ := h; exact ⟨hs, rfl, _, rfl⟩
  · obtain ⟨ha, hs, rfl⟩ := h; exact ⟨hs, rfl, _, rfl⟩

theorem Completes.pop_sp {a : Byte} {s t : State} (h : Completes (.pop a) s t) :
    t.sp = if s.sp = 0xFF#8 then s.sp else s.sp + 1#8 := by
  obtain ⟨ha, rfl⟩ := h
  rw [raiseSp_eq_setSp]
  rfl

/-- A completed instruction keeps memory canonical. -/
theorem Completes.mem_wf {i : Instr} {s t : State} (h : Completes i s t) (hs : s.mem.wf) :
    t.mem.wf := by
  by_cases hi : opcodeOf i ∈ pushOpcodes
  · obtain ⟨-, -, v, hm⟩ := h.push hi
    rw [hm]
    exact Memory.wf_write hs (pushAddress_lt s) v
  · rw [h.frame.mem hi]
    exact hs

/-! ## Where `pc` can go (R13, R14) -/

theorem zext9_toNat_le (v : Byte) : (zext9 v).toNat ≤ 0x100 := by
  have := v.isLt
  simp only [zext9, BitVec.toNat_setWidth]
  omega

theorem advancePc_pc_toNat_le {s : State} {n : Nat} (hp : s.pc.toNat ≤ 0xFD) (hn : n ≤ 3) :
    (s.advancePc n).pc.toNat ≤ 0x100 := by
  simp only [State.advancePc_pc, BitVec.toNat_add, BitVec.toNat_ofNat]
  omega

/-- From an address where an instruction can be fetched, `pc` stays within R13's values. -/
theorem Completes.pc_le {i : Instr} {s t : State} (h : Completes i s t) (hp : s.pc.toNat ≤ 0xFD) :
    t.pc.toNat ≤ 0x100 := by
  cases i with
  | ldi a b => obtain ⟨ha, rfl⟩ := h; exact advancePc_pc_toNat_le hp (by decide)
  | prn a => obtain ⟨ha, rfl⟩ := h; exact advancePc_pc_toNat_le hp (by decide)
  | add a b => obtain ⟨ha, hb, rfl⟩ := h; exact advancePc_pc_toNat_le hp (by decide)
  | mul a b => obtain ⟨ha, hb, rfl⟩ := h; exact advancePc_pc_toNat_le hp (by decide)
  | pop a =>
    obtain ⟨ha, rfl⟩ := h
    rw [raiseSp_eq_setSp]
    exact advancePc_pc_toNat_le hp (by decide)
  | push a => obtain ⟨ha, hs, rfl⟩ := h; exact advancePc_pc_toNat_le hp (by decide)
  | call a => obtain ⟨ha, hs, rfl⟩ := h; exact zext9_toNat_le _
  | ret => cases h; exact zext9_toNat_le _
  | hlt => cases h; exact Nat.le_trans hp (by decide)

/-! ## The invariant -/

/-- Taking a documented fault, whatever the run state was, meets the invariant. -/
theorem State.Inv.takeFault {s : State} (h : s.Inv) {o : Option Byte} {e : Raise}
    (hd : FaultRecord.Documented ⟨causeOf e, s.pc, o, spaceOf e, infoOf e⟩ s.sp) :
    (s.takeFault o e).Inv where
  memWf := h.memWf
  pcRange := h.pcRange
  running hr := by cases hr
  halted hr := by cases hr
  faulted _ := ⟨_, rfl, rfl, hd⟩

/-- A fault of the fetch or of the dispatcher is a row of R110's table; the opcode is missing exactly
where `pc` is 0x100. -/
theorem documented_of_fetchDecode_error {s : State} {e : EarlyFault} (hp : s.pc.toNat ≤ 0x100)
    (h : fetchDecode s = .error e) :
    FaultRecord.Documented ⟨causeOf e.raised, s.pc, e.opcode, spaceOf e.raised, infoOf e.raised⟩
      s.sp := by
  rcases fetchDecode_error h with ⟨-, hm, -, rfl⟩ | ⟨hlo, hhi, rfl⟩ | ⟨hlo, rfl⟩
  · exact .inl ⟨rfl, rfl, _, rfl, hm, rfl⟩
  · refine .inr (.inl ⟨rfl, rfl, rfl, hlo, ?_⟩)
    have : s.pc.toNat ≠ 0x100 := by omega
    simpa using this
  · have hpc : s.pc.toNat = 0x100 := by omega
    exact .inr (.inl ⟨rfl, rfl, hpc, hpc ▸ by decide, by simpa using hpc⟩)

/-- A fault an instruction raises is a row of R110's table. -/
theorem Raises.documented {i : Instr} {s : State} {e : Raise} (h : Raises i s e) :
    FaultRecord.Documented ⟨causeOf e, s.pc, some (opcodeOf i), spaceOf e, infoOf e⟩ s.sp := by
  rcases h with ⟨x, -, hx, ho, rfl⟩ | ⟨-, ho, hs, rfl⟩
  · exact .inr (.inr (.inl ⟨rfl, rfl, hx, Nat.le_of_lt_succ x.isLt, _, ho, rfl⟩))
  · exact .inr (.inr (.inr ⟨rfl, rfl, congrArg BitVec.toNat hs, hs, _, ho, rfl⟩))

/-- A completed instruction of the cycle keeps the invariant: HLT leaves the state a halted core needs,
every other instruction leaves a running core without a record. -/
theorem Completes.inv {i : Instr} {s t : State} (h : Completes i s t) (hs : s.Inv)
    (hi : AboutToRun s i) : t.Inv := by
  obtain ⟨hrun, hfault⟩ := h.run_fault
  have hnone : t.fault = none := hfault.trans (hs.running hi.running)
  refine ⟨h.mem_wf hs.memWf, h.pc_le hi.inRange, fun _ => hnone, fun ht => ?_, fun ht => ?_⟩
  · by_cases hh : i = .hlt
    · subst hh
      cases h
      exact ⟨hnone, hi.inRange, hi.read_pc⟩
    · simp [hrun, hh, hi.running] at ht
  · by_cases hh : i = .hlt <;> simp [hrun, hh, hi.running] at ht

/-- Settles O51: a terminal state is kept, a fault's record is documented, and an instruction that
completes keeps the invariant. -/
theorem stepKeepsTheInvariant : Obligations.StepKeepsTheInvariant := by
  intro s t hs h
  rcases step_cases h with ⟨-, rfl⟩ | ⟨-, e, he, rfl⟩ | ⟨i, hi, hx⟩
  · exact hs
  · exact hs.takeFault (documented_of_fetchDecode_error hs.pcRange he)
  · rcases exec_cases hx with hc | ⟨e, he, rfl⟩
    · exact hc.inv hs hi
    · exact hs.takeFault he.documented

/-! ## Reset and the reachable platforms (R23, R143) -/

/-- Settles O1: all but the registers and memory hold by the definition of Reset. -/
theorem resetSetsEveryPieceOfState : Obligations.ResetSetsEveryPieceOfState := by
  intro p
  refine ⟨rfl, rfl, rfl, rfl, rfl, rfl, fun i => ?_, fun addr h => ?_⟩
  · simp [State.getReg]
  · rw [State.resetWith_mem, resetMemory_read p h]

theorem resetWith_inv (p : Config.ResetParams) : (State.resetWith p).Inv where
  memWf := resetMemory_wf p
  pcRange := Nat.zero_le _
  running _ := rfl
  halted h := by cases h
  faulted h := by cases h

/-- The image replaces memory alone, so a core that still runs keeps the invariant; a halted one would
need its HLT kept in place. -/
theorem loadImage_inv {image : List Byte} {s t : State} (h : loadImage image s = .next t)
    (hs : s.Inv) (hr : s.run = .running) : t.Inv := by
  have hm := loadImage_mem_wf h hs.memWf
  unfold loadImage at h
  split at h
  · cases h
    refine ⟨hm, hs.pcRange, hs.running, fun ht => ?_, hs.faulted⟩
    cases hr.symm.trans ht
  · cases h

theorem Platform.lift_eq_next {q : Phase} {o : Host.Outcome State Fault Refusal} {h' : Platform}
    (h : Platform.lift q o = .next h') : ∃ t, o = .next t ∧ h' = ⟨q, t⟩ := by
  cases o with
  | next t => cases h; exact ⟨t, rfl, rfl⟩
  | fault r => cases h
  | refused r => cases h

/-- What every host action keeps: the core's invariant, and that a core awaiting its image runs, which
is what makes the Load safe. -/
structure Platform.Inv (h : Platform) : Prop where
  core : h.core.Inv
  awaiting : h.phase = .awaitingLoad → h.core.run = .running

theorem Platform.construct_inv (p : Config.ResetParams) : (Platform.construct p).Inv :=
  ⟨resetWith_inv p, fun _ => rfl⟩

theorem Platform.step_inv {h h' : Platform} (hi : h.Inv)
    (ha : Platform.lift .started (step h.core) = .next h') : h'.Inv := by
  obtain ⟨t, ht, rfl⟩ := Platform.lift_eq_next ha
  exact ⟨stepKeepsTheInvariant _ _ hi.core ht, fun hq => by cases hq⟩

theorem Platform.act_inv {p : Config.ResetParams} {a : HostAction} {h h' : Platform} (hi : h.Inv)
    (ha : Platform.act p a h = .next h') : h'.Inv := by
  cases a with
  | reset => cases ha; exact Platform.construct_inv p
  | load image =>
    cases hq : h.phase with
    | awaitingLoad =>
      simp only [Platform.act, hq] at ha
      obtain ⟨t, ht, rfl⟩ := Platform.lift_eq_next ha
      exact ⟨loadImage_inv ht hi.core (hi.awaiting hq), fun hq => by cases hq⟩
    | loaded => simp [Platform.act, hq] at ha
    | started => simp [Platform.act, hq] at ha
  | step =>
    cases hq : h.phase with
    | awaitingLoad => simp [Platform.act, hq] at ha
    | loaded => simp only [Platform.act, hq] at ha; exact Platform.step_inv hi ha
    | started => simp only [Platform.act, hq] at ha; exact Platform.step_inv hi ha

theorem Reachable.inv {p : Config.ResetParams} {h : Platform} (hr : Reachable p h) : h.Inv := by
  induction hr with
  | construct => exact Platform.construct_inv p
  | act a _ ha ih => exact Platform.act_inv ih ha

/-- Settles O53: `Platform.Inv` holds of the constructed platform and every host action keeps it. -/
theorem reachableCoresMeetInvariant : Obligations.ReachableCoresMeetInvariant :=
  fun _ _ hr => hr.inv.core

/-! ## Run states (R18) -/

/-- A byte that no instruction has for its opcode is not HLT's. -/
theorem read_pc_ne_hlt_of_fetchDecode_error {s : State} {e : EarlyFault}
    (h : fetchDecode s = .error e) : ¬ (s.pc.toNat ≤ 0xFD ∧ s.mem.read s.pc.toNat = 0x01#8) := by
  rintro ⟨hp, hb⟩
  rcases fetchDecode_error h with ⟨-, hm, -⟩ | ⟨hlo, -⟩ | ⟨hlo, -⟩
  · exact hm (hb ▸ by decide)
  · omega
  · omega

theorem Raises.registerOperands_ne_nil {i : Instr} {s : State} {e : Raise} (h : Raises i s e) :
    i.registerOperands ≠ [] := by
  rcases h with ⟨x, hx, -⟩ | ⟨-, ho, -⟩
  · intro hn
    simp [Instr.firstBadRegister, hn] at hx
  · obtain ⟨a, rfl | rfl⟩ := opcodeOf_mem_pushOpcodes.mp ho <;> simp [Instr.registerOperands]

/-- The transitions a fault makes: never to Halted, always to Faulted with a record. -/
theorem takeFault_eq_faulted (s : State) (o : Option Byte) (e : Raise) :
    ∃ r, s.takeFault o e = { s with run := .faulted, fault := some r } := ⟨_, rfl⟩

/-- Settles O12: the byte at `pc` is HLT's exactly when HLT is about to run, and HLT cannot fault. -/
theorem runStateTransitions : Obligations.RunStateTransitions := by
  intro s t h
  rcases step_cases h with ⟨hterm, rfl⟩ | ⟨hr, e, he, rfl⟩ | ⟨i, hi, hx⟩
  · exact ⟨fun _ => rfl, fun _ => rfl, fun hr => absurd hr hterm⟩
  · have hnh := read_pc_ne_hlt_of_fetchDecode_error he
    simp [hr, hnh, takeFault_eq_faulted]
  · have hb : (s.pc.toNat ≤ 0xFD ∧ s.mem.read s.pc.toNat = 0x01#8) ↔ i = .hlt := by
      rw [hi.read_pc, opcodeOf_eq_hlt, and_iff_right hi.inRange]
    rw [hb]
    rcases exec_cases hx with hc | ⟨e, he, rfl⟩
    · obtain ⟨hrun, hfault⟩ := hc.run_fault
      have hnf : t.run ≠ .faulted := by
        rw [hrun, hi.running]; split <;> simp
      refine ⟨?_, ?_, fun _ => ⟨?_, ?_, fun _ => hfault⟩⟩
      · simp [hi.running]
      · simp [hi.running]
      · rw [hrun, hi.running]; split <;> simp [*]
      · exact ⟨fun hf => absurd hf hnf, fun ⟨r, hr⟩ => absurd (congrArg State.run hr) hnf⟩
    · have hne : i ≠ .hlt := fun hh => he.registerOperands_ne_nil (hh ▸ rfl)
      simp [hi.running, hne, takeFault_eq_faulted]

/-! ## Frames of the instructions (R12) -/

/-- Settles O30, from the frame of `exec` and what it does to run and fault. -/
theorem frameOfLdiAddMul : Obligations.FrameOfLdiAddMul := by
  intro i a b s t hi h
  have hf := exec_frame h
  have hpush : opcodeOf i ∉ pushOpcodes := by
    rcases hi with rfl | rfl | rfl <;> simp [opcodeOf_mem_pushOpcodes]
  have hpop : ∀ a, i ≠ .pop a := by rcases hi with rfl | rfl | rfl <;> simp
  have hprn : ∀ a, i ≠ .prn a := by rcases hi with rfl | rfl | rfl <;> simp
  have hhlt : i ≠ .hlt := by rcases hi with rfl | rfl | rfl <;> simp
  have hw : ∀ k, writesRegister i k → a.toNat = k.val := by
    rcases hi with rfl | rfl | rfl <;> exact fun _ => id
  refine ⟨fun k hk => hf.reg k (mt (hw k) hk), hf.sp hpush hpop, hf.fl, hf.out hprn,
    fun addr => by rw [hf.mem hpush], ?_⟩
  exact (exec_run_fault hhlt h).imp_right fun ⟨_, _, ht⟩ => by simp [ht]

/-- Settles O31; the output alone needs PRN's own effect. -/
theorem frameOfPrn : Obligations.FrameOfPrn := by
  intro a s t h
  have hf := exec_frame h
  have hpush : opcodeOf (.prn a) ∉ pushOpcodes := by simp [opcodeOf_mem_pushOpcodes]
  have hout : s.out <+: t.out := by
    rcases exec_cases h with ⟨ha, rfl⟩ | ⟨e, -, rfl⟩
    · exact ⟨[_], rfl⟩
    · exact ⟨[], List.append_nil s.out⟩
  refine ⟨fun k => hf.reg k id, hf.sp hpush (by simp), hf.fl, hout,
    fun addr => by rw [hf.mem hpush], ?_⟩
  exact (exec_run_fault (by simp) h).imp_right fun ⟨_, _, ht⟩ => by simp [ht]

/-- Settles O32, from the frame of `exec` and what it does to run and fault. -/
theorem frameOfPop : Obligations.FrameOfPop := by
  intro a s t h
  have hf := exec_frame h
  have hpush : opcodeOf (.pop a) ∉ pushOpcodes := by simp [opcodeOf_mem_pushOpcodes]
  refine ⟨fun k hk => hf.reg k hk, hf.fl, hf.out (by simp), fun addr => by rw [hf.mem hpush], ?_⟩
  exact (exec_run_fault (by simp) h).imp_right fun ⟨_, _, ht⟩ => by simp [ht]

/-- A push, completed or faulted, leaves every cell but the one below the top (R24). -/
theorem exec_push_read {i : Instr} {s t : State} (hi : opcodeOf i ∈ pushOpcodes)
    (h : exec i s = .next t) {addr : Nat} (ha : addr ≠ pushAddress s) :
    t.mem.read addr = s.mem.read addr := by
  rcases exec_cases h with hc | ⟨e, -, rfl⟩
  · obtain ⟨-, -, v, hm⟩ := hc.push hi
    rw [hm, Memory.read_write, if_neg ha]
  · rfl

/-- Settles O33; memory outside the pushed cell is `exec_push_read`. -/
theorem frameOfPushAndCall : Obligations.FrameOfPushAndCall := by
  intro i a s t hi h
  have hf := exec_frame h
  have hpush : opcodeOf i ∈ pushOpcodes := opcodeOf_mem_pushOpcodes.mpr ⟨a, hi⟩
  have hprn : ∀ a, i ≠ .prn a := by rcases hi with rfl | rfl <;> simp
  have hhlt : i ≠ .hlt := by rcases hi with rfl | rfl <;> simp
  have hw : ∀ k, ¬ writesRegister i k := by rcases hi with rfl | rfl <;> exact fun _ => id
  refine ⟨fun k => hf.reg k (hw k), hf.fl, hf.out hprn, fun _ => exec_push_read hpush h, ?_⟩
  exact (exec_run_fault hhlt h).imp_right fun ⟨_, _, ht⟩ => by simp [ht]

/-- Settles O34: neither RET nor HLT has a register operand, so both complete. -/
theorem frameOfRetAndHlt : Obligations.FrameOfRetAndHlt := by
  intro i s t hi h
  have hnil : i.registerOperands = [] := by rcases hi with rfl | rfl <;> rfl
  have hc : Completes i s t :=
    (exec_cases h).resolve_right fun ⟨_, he, _⟩ => he.registerOperands_ne_nil hnil
  have hf := hc.frame
  obtain ⟨hrun, hfault⟩ := hc.run_fault
  have hpush : opcodeOf i ∉ pushOpcodes := by
    rcases hi with rfl | rfl <;> simp [opcodeOf_mem_pushOpcodes]
  have hpop : ∀ a, i ≠ .pop a := by rcases hi with rfl | rfl <;> simp
  have hprn : ∀ a, i ≠ .prn a := by rcases hi with rfl | rfl <;> simp
  have hw : ∀ k, ¬ writesRegister i k := by rcases hi with rfl | rfl <;> exact fun _ => id
  refine ⟨fun k => hf.reg k (hw k), hf.sp hpush hpop, hf.fl, hf.out hprn, hfault,
    fun addr => by rw [hf.mem hpush], fun hret => by simp [hrun, hret], fun hhlt => ?_⟩
  subst hhlt
  cases hc
  rfl

end Sys2Proof.Machine
end

section
/-! PROOFS. The state family, continued: what a step does to `sp`, memory and the output, and the pieces of
state an instruction does not read. An instruction's outcome is fixed by `Completes` and `Raises`, so a
change of state that both ignore is carried through by `exec` (`exec_commutes`). -/

namespace Sys2Proof.Machine

/-! ## What a step does to `sp`, memory and the output (R15, R20, R24) -/

/-- Inversion of a step by what it executes: an instruction completed, or the state kept but for run and
fault. -/
theorem step_completes_or_faults {s t : State} (h : step s = .next t) :
    (∃ i, AboutToRun s i ∧ Completes i s t) ∨ t = s ∨ ∃ o e, t = s.takeFault o e := by
  rcases step_cases h with ⟨-, rfl⟩ | ⟨-, e, -, rfl⟩ | ⟨i, hi, hx⟩
  · exact .inr (.inl rfl)
  · exact .inr (.inr ⟨_, _, rfl⟩)
  · rcases exec_cases hx with hc | ⟨e, -, rfl⟩
    · exact .inl ⟨i, hi, hc⟩
    · exact .inr (.inr ⟨_, e, rfl⟩)

/-- Settles O38: a push completes only above 0, and POP adds one only below 0xFF. -/
theorem stackPointerMovesByOneAndNeverWraps : Obligations.StackPointerMovesByOneAndNeverWraps := by
  intro s t h
  rcases step_completes_or_faults h with ⟨i, hi, hc⟩ | rfl | ⟨o, e, rfl⟩
  · by_cases hpush : opcodeOf i ∈ pushOpcodes
    · obtain ⟨hsp, ht, -⟩ := hc.push hpush
      have hpos : 1 ≤ s.sp.toNat := by bv_omega
      exact .inr (.inl ⟨i, hi, hpush, hpos, by rw [ht]; bv_omega⟩)
    · by_cases hpop : ∃ a, i = .pop a
      · obtain ⟨a, rfl⟩ := hpop
        have ht := hc.pop_sp
        split at ht
        · exact .inl ht
        · exact .inr (.inr ⟨a, hi, by bv_omega, by rw [ht]; bv_omega⟩)
      · exact .inl (hc.frame.sp hpush fun a ha => hpop ⟨a, ha⟩)
  · exact .inl rfl
  · exact .inl rfl

/-- Settles O39: a completed instruction that does not push keeps memory, and a push writes one cell. -/
theorem onlyPushAndCallWriteMemory : Obligations.OnlyPushAndCallWriteMemory := by
  intro s t h addr hne
  rcases step_completes_or_faults h with ⟨i, hi, hc⟩ | rfl | ⟨o, e, rfl⟩
  · by_cases hpush : opcodeOf i ∈ pushOpcodes
    · obtain ⟨hsp, -, v, hm⟩ := hc.push hpush
      refine ⟨?_, i, hi, hpush⟩
      by_contra ha
      rw [← pushAddress_of_ne hsp] at ha
      exact hne (by rw [hm, Memory.read_write, if_neg ha])
    · exact absurd (congrArg (·.read addr) (hc.frame.mem hpush)) hne
  · exact absurd rfl hne
  · exact absurd rfl hne

/-! ## The outcome of an instruction is fixed by `Completes` and `Raises` -/

theorem Completes.firstBadRegister {i : Instr} {s t : State} (h : Completes i s t) :
    i.firstBadRegister = none := by
  cases i with
  | ldi a b => obtain ⟨ha, -⟩ := h; rw [firstBadRegister_one rfl, if_pos ha]
  | prn a => obtain ⟨ha, -⟩ := h; rw [firstBadRegister_one rfl, if_pos ha]
  | add a b => obtain ⟨ha, hb, -⟩ := h; rw [firstBadRegister_two rfl, if_pos ha, if_pos hb]
  | mul a b => obtain ⟨ha, hb, -⟩ := h; rw [firstBadRegister_two rfl, if_pos ha, if_pos hb]
  | pop a => obtain ⟨ha, -⟩ := h; rw [firstBadRegister_one rfl, if_pos ha]
  | push a => obtain ⟨ha, -⟩ := h; rw [firstBadRegister_one rfl, if_pos ha]
  | call a => obtain ⟨ha, -⟩ := h; rw [firstBadRegister_one rfl, if_pos ha]
  | ret => rfl
  | hlt => rfl

theorem Completes.not_raises {i : Instr} {s t : State} {e : Raise} (h : Completes i s t) :
    ¬ Raises i s e := by
  rintro (⟨x, hx, -⟩ | ⟨-, ho, hs, -⟩)
  · rw [h.firstBadRegister] at hx; cases hx
  · exact (h.push ho).1 hs

theorem Completes.unique {i : Instr} {s t u : State} (h : Completes i s t) (h' : Completes i s u) :
    t = u := by
  cases i with
  | ldi a b => obtain ⟨_, rfl⟩ := h; obtain ⟨_, rfl⟩ := h'; rfl
  | prn a => obtain ⟨_, rfl⟩ := h; obtain ⟨_, rfl⟩ := h'; rfl
  | add a b => obtain ⟨_, _, rfl⟩ := h; obtain ⟨_, _, rfl⟩ := h'; rfl
  | mul a b => obtain ⟨_, _, rfl⟩ := h; obtain ⟨_, _, rfl⟩ := h'; rfl
  | pop a => obtain ⟨_, rfl⟩ := h; obtain ⟨_, rfl⟩ := h'; rfl
  | push a => obtain ⟨_, _, rfl⟩ := h; obtain ⟨_, _, rfl⟩ := h'; rfl
  | call a => obtain ⟨_, _, rfl⟩ := h; obtain ⟨_, _, rfl⟩ := h'; rfl
  | ret => cases h; cases h'; rfl
  | hlt => cases h; cases h'; rfl

theorem Raises.unique {i : Instr} {s : State} {e e' : Raise} (h : Raises i s e)
    (h' : Raises i s e') : e = e' := by
  rcases h with ⟨x, hx, -, -, rfl⟩ | ⟨hn, -, -, rfl⟩ <;>
    rcases h' with ⟨y, hy, -, -, rfl⟩ | ⟨hn', -, -, rfl⟩
  · cases hx.symm.trans hy; rfl
  · cases hx.symm.trans hn'
  · cases hn.symm.trans hy
  · rfl

theorem exec_of_completes {i : Instr} {s t : State} (h : Completes i s t) : exec i s = .next t := by
  rcases exec_answers i s with ⟨u, hu, hc⟩ | ⟨e, he, -⟩
  · rw [hu, hc.unique h]
  · exact absurd he h.not_raises

theorem exec_of_raises {i : Instr} {s : State} {e : Raise} (h : Raises i s e) :
    exec i s = .next (s.takeFault (some (opcodeOf i)) e) := by
  rcases exec_answers i s with ⟨u, -, hc⟩ | ⟨e', he, hx⟩
  · exact absurd h hc.not_raises
  · rw [hx, he.unique h]

/-- A raise depends on nothing but `sp` (R116). -/
theorem Raises.congr {i : Instr} {s s' : State} {e : Raise} (h : Raises i s e) (hsp : s'.sp = s.sp) :
    Raises i s' e := by
  unfold Raises at *
  rwa [hsp]

/-- A change of state that an instruction carries through commutes with it, if neither the stack pointer
nor the rest of a fault's state depends on the change. -/
theorem exec_commutes {i : Instr} {s : State} {f : State → State} (hsp : (f s).sp = s.sp)
    (hfault : ∀ o e, (f s).takeFault o e = f (s.takeFault o e))
    (hc : ∀ t, Completes i s t → Completes i (f s) (f t)) :
    exec i (f s) = mapNext f (exec i s) := by
  rcases exec_answers i s with ⟨t, ht, hs⟩ | ⟨e, he, hx⟩
  · rw [ht, exec_of_completes (hc t hs)]; rfl
  · rw [hx, exec_of_raises (he.congr hsp), hfault]; rfl

/-! ## A step reads neither `fl` nor the output (R16, R20) -/

theorem fetchDecode_congr {s s' : State} (hpc : s'.pc = s.pc) (hmem : s'.mem = s.mem) :
    fetchDecode s' = fetchDecode s := by
  simp only [fetchDecode, fetch, memRead, hpc, hmem]

/-- The state with its flags byte passed through `g` and older output put before its own. -/
def State.recast (g : Byte → Byte) (older : List Byte) (s : State) : State :=
  { s with fl := g s.fl, out := older ++ s.out }

theorem Completes.recast {i : Instr} {s t : State} (h : Completes i s t) (g : Byte → Byte)
    (older : List Byte) : Completes i (s.recast g older) (t.recast g older) := by
  cases i with
  | ldi a b => obtain ⟨ha, rfl⟩ := h; exact ⟨ha, rfl⟩
  | prn a =>
    obtain ⟨ha, rfl⟩ := h
    refine ⟨ha, ?_⟩
    simp only [State.recast, State.emit, State.getReg, State.advancePc, State.setPc,
      List.append_assoc]
  | add a b => obtain ⟨ha, hb, rfl⟩ := h; exact ⟨ha, hb, rfl⟩
  | mul a b => obtain ⟨ha, hb, rfl⟩ := h; exact ⟨ha, hb, rfl⟩
  | pop a =>
    obtain ⟨ha, rfl⟩ := h
    refine ⟨ha, ?_⟩
    rw [raiseSp_eq_setSp, raiseSp_eq_setSp]
    rfl
  | push a => obtain ⟨ha, hs, rfl⟩ := h; exact ⟨ha, hs, rfl⟩
  | call a => obtain ⟨ha, hs, rfl⟩ := h; exact ⟨ha, hs, rfl⟩
  | ret => cases h; rfl
  | hlt => cases h; rfl

theorem exec_recast (i : Instr) (s : State) (g : Byte → Byte) (older : List Byte) :
    exec i (s.recast g older) = mapNext (State.recast g older) (exec i s) :=
  exec_commutes rfl (fun _ _ => rfl) fun _ h => h.recast g older

/-- No step depends on the flags or on past output: what is done to them beforehand is carried through
(R16, R20). -/
theorem step_recast (s : State) (g : Byte → Byte) (older : List Byte) :
    step (s.recast g older) = mapNext (State.recast g older) (step s) := by
  have hfd : fetchDecode (s.recast g older) = fetchDecode s := fetchDecode_congr rfl rfl
  have hrun : (s.recast g older).run = s.run := rfl
  unfold step front
  rw [hrun, hfd]
  cases s.run with
  | halted => rfl
  | faulted => rfl
  | running =>
    cases fetchDecode s with
    | error e => rfl
    | ok i => exact exec_recast i s g older

/-- Settles O35: `step_recast` with the flags overwritten and no older output. -/
theorem flagsAreNeitherReadNorWritten : Obligations.FlagsAreNeitherReadNorWritten := by
  refine ⟨fun s => ⟨rfl, rfl, rfl⟩, fun s t h => ?_, fun s v => step_recast s (fun _ => v) []⟩
  rcases step_completes_or_faults h with ⟨i, -, hc⟩ | rfl | ⟨o, e, rfl⟩
  · exact hc.frame.fl
  · rfl
  · rfl

/-- Settles O36: `step_recast` with the flags kept; PRN alone is outside the frame of `out`. -/
theorem onlyPrnExtendsTheOutput : Obligations.OnlyPrnExtendsTheOutput := by
  refine ⟨fun p => rfl, fun s t h => ?_, fun s older => step_recast s id older⟩
  rcases step_completes_or_faults h with ⟨i, hi, hc⟩ | rfl | ⟨o, e, rfl⟩
  · by_cases hprn : ∃ a, i = .prn a
    · obtain ⟨a, rfl⟩ := hprn
      obtain ⟨ha, rfl⟩ := hc
      exact .inr ⟨a, ha, hi, rfl⟩
    · exact .inl (hc.frame.out fun a ha => hprn ⟨a, ha⟩)
  · exact .inl rfl
  · exact .inl rfl

/-! ## Which registers an instruction uses (R12) -/

theorem State.setReg_setReg_self (s : State) (i : Fin 8) (v w : Byte) :
    (s.setReg i v).setReg i w = s.setReg i w := by
  simp [State.setReg]

theorem State.setReg_setReg_comm (s : State) {i k : Fin 8} (v w : Byte) (h : k ≠ i) :
    (s.setReg k v).setReg i w = (s.setReg i w).setReg k v := by
  have hv : k.val ≠ i.val := fun e => h (Fin.ext e)
  simp only [State.setReg]
  rw [Vector.set_comm _ _ hv]

/-- Only LDI and POP write a register without reading it (R12). -/
theorem overwrites_only {i : Instr} {k : Fin 8} (hr : ¬ readsRegister i k) (hw : writesRegister i k) :
    ∃ a : Byte, a.toNat = k.val ∧ ((∃ b, i = .ldi a b) ∨ i = .pop a) := by
  cases i with
  | ldi a b => exact ⟨a, hw, .inl ⟨b, rfl⟩⟩
  | pop a => exact ⟨a, hw, .inr rfl⟩
  | add a b => exact absurd (.inl hw) hr
  | mul a b => exact absurd (.inl hw) hr
  | prn a => exact hw.elim
  | push a => exact hw.elim
  | call a => exact hw.elim
  | ret => exact hw.elim
  | hlt => exact hw.elim

/-- What stands in a register that is overwritten does not matter. -/
theorem exec_setReg_overwritten {i : Instr} {k : Fin 8} (s : State) (v : Byte)
    (hr : ¬ readsRegister i k) (hw : writesRegister i k) : exec i (s.setReg k v) = exec i s := by
  obtain ⟨a, hk, hi⟩ := overwrites_only hr hw
  have ha : a.toNat < 8 := hk ▸ k.isLt
  obtain rfl : k = ⟨a.toNat, ha⟩ := Fin.ext hk.symm
  rcases hi with ⟨b, rfl⟩ | rfl
  · have hs : Completes (.ldi a b) s _ := ⟨ha, rfl⟩
    have hs' : Completes (.ldi a b) (s.setReg ⟨a.toNat, ha⟩ v) _ := ⟨ha, rfl⟩
    rw [exec_of_completes hs, exec_of_completes hs', State.setReg_setReg_self]
  · have hs : Completes (.pop a) s _ := ⟨ha, rfl⟩
    have hs' : Completes (.pop a) (s.setReg ⟨a.toNat, ha⟩ v) _ := ⟨ha, rfl⟩
    rw [exec_of_completes hs, exec_of_completes hs', State.setReg_setReg_self]
    rfl

/-- What stands in a register that is neither read nor written is carried through a completion. -/
theorem Completes.setReg {i : Instr} {s t : State} {k : Fin 8} (h : Completes i s t) (v : Byte)
    (hr : ¬ readsRegister i k) (hw : ¬ writesRegister i k) :
    Completes i (s.setReg k v) (t.setReg k v) := by
  have hne : ∀ {a : Byte} (ha : a.toNat < 8), a.toNat ≠ k.val → (⟨a.toNat, ha⟩ : Fin 8) ≠ k :=
    fun _ hk e => hk (congrArg Fin.val e)
  cases i with
  | ldi a b =>
    obtain ⟨ha, rfl⟩ := h
    refine ⟨ha, ?_⟩
    rw [State.setReg_setReg_comm _ _ _ (hne ha hw).symm]
    rfl
  | prn a =>
    obtain ⟨ha, rfl⟩ := h
    refine ⟨ha, ?_⟩
    rw [State.getReg_setReg_of_ne _ _ (hne ha hr)]
    rfl
  | add a b =>
    obtain ⟨ha, hb, rfl⟩ := h
    obtain ⟨hra, hrb⟩ := not_or.mp hr
    refine ⟨ha, hb, ?_⟩
    rw [State.getReg_setReg_of_ne _ _ (hne ha hra), State.getReg_setReg_of_ne _ _ (hne hb hrb),
      State.setReg_setReg_comm _ _ _ (hne ha hra).symm]
    rfl
  | mul a b =>
    obtain ⟨ha, hb, rfl⟩ := h
    obtain ⟨hra, hrb⟩ := not_or.mp hr
    refine ⟨ha, hb, ?_⟩
    rw [State.getReg_setReg_of_ne _ _ (hne ha hra), State.getReg_setReg_of_ne _ _ (hne hb hrb),
      State.setReg_setReg_comm _ _ _ (hne ha hra).symm]
    rfl
  | pop a =>
    obtain ⟨ha, rfl⟩ := h
    refine ⟨ha, ?_⟩
    rw [State.setReg_setReg_comm _ _ _ (hne ha hw).symm, raiseSp_eq_setSp, raiseSp_eq_setSp]
    rfl
  | push a =>
    obtain ⟨ha, hs, rfl⟩ := h
    refine ⟨ha, hs, ?_⟩
    rw [State.getReg_setReg_of_ne _ _ (hne ha hr)]
    rfl
  | call a =>
    obtain ⟨ha, hs, rfl⟩ := h
    refine ⟨ha, hs, ?_⟩
    rw [State.getReg_setReg_of_ne _ _ (hne ha hr)]
    rfl
  | ret => cases h; rfl
  | hlt => cases h; rfl

/-- Settles O37: the frame of the registers, the overwritten register, and the one carried through. -/
theorem registersAreUsedAsTabulated : Obligations.RegistersAreUsedAsTabulated := by
  refine ⟨fun i s t k hw h => (exec_frame h).reg k hw,
    fun i s k v hr hw => exec_setReg_overwritten s v hr hw, fun i s k v hr hw => ?_⟩
  exact exec_commutes (f := fun t => t.setReg k v) rfl (fun _ _ => rfl) fun _ h => h.setReg v hr hw

end Sys2Proof.Machine
end

section
/-! PROOFS. The memory family (20_memory.md): the access primitives (R32, R33), and that the fetch of the
next cycle sees what a push has just stored (R43). -/

namespace Sys2Proof.Machine

/-! ## The access primitives (R32, R33) -/

/-- Settles O29: one clause per access and side of the bound 0xFF, the written cell by
`Memory.read_write`. -/
theorem memoryAccessesAreBoundsChecked : Obligations.MemoryAccessesAreBoundsChecked := by
  intro s addr v
  refine ⟨fun h => memRead_of_lt s (Nat.lt_succ_of_le h), fun h => memRead_of_ge s h, fun h => ?_,
    fun h => memWrite_of_ge s h v⟩
  exact ⟨_, memWrite_of_lt s (Nat.lt_succ_of_le h) v, rfl, Memory.read_write s.mem addr v⟩

/-! ## A stored byte is fetched by the next cycle (R43) -/

/-- The cycle executes the instruction that is about to run (R65). -/
theorem AboutToRun.step_eq_exec {s : State} {i : Instr} (h : AboutToRun s i) : step s = exec i s := by
  have hf : fetchDecode s = .ok i := fetchDecode_of_fetch (fetch_of_le h.inRange) h.decoded
  simp only [step, front, h.running, hf]

/-- The return address of a cycle that executes fits its byte (R101). -/
theorem returnAddress_toNat {s : State} (h : s.pc.toNat ≤ 0xFD) :
    (returnAddress s).toNat = s.pc.toNat + 2 := by
  simp only [returnAddress, BitVec.toNat_ofNat]
  omega

/-- Where `pc` stands on a cell just written, the fetch reads the written byte as the opcode. -/
theorem fetch_opcode_of_write {t : State} {m : Memory} {addr : Nat} {v : Byte}
    (hm : t.mem = m.write addr v) (hpc : t.pc.toNat = addr) (hle : t.pc.toNat ≤ 0xFD) :
    ∃ f, fetch t = .ok f ∧ f.opcode = v := by
  refine ⟨fetchedAt t, fetch_of_le hle, ?_⟩
  change t.mem.read t.pc.toNat = v
  rw [hm, hpc, Memory.read_write, if_pos rfl]

/-- Settles O41: the push completes, and `fetch_opcode_of_write` reads back the byte it stored. -/
theorem storedByteIsFetchedNext : Obligations.StoredByteIsFetchedNext := by
  intro s t i a ha hi hrun hsp hstep hpc hle
  rw [hrun.step_eq_exec] at hstep
  rcases hi with rfl | rfl
  · have hc : Completes (.push a) s _ := ⟨ha, hsp, rfl⟩
    cases (exec_of_completes hc).symm.trans hstep
    obtain ⟨f, hf, hop⟩ := fetch_opcode_of_write rfl hpc hle
    exact ⟨f, hf, fun _ => hop, nofun⟩
  · have hc : Completes (.call a) s _ := ⟨ha, hsp, rfl⟩
    cases (exec_of_completes hc).symm.trans hstep
    obtain ⟨f, hf, hop⟩ := fetch_opcode_of_write rfl hpc hle
    exact ⟨f, hf, nofun, fun _ => hop ▸ returnAddress_toNat hrun.inRange⟩

end Sys2Proof.Machine
end

section
/-! PROOFS. The encoding family (30_encoding.md): decoder and encoder agree (R50, R53), the unlisted opcodes
(R55, R111), and the length as the advance of `pc` (R14, R51). -/

namespace Sys2Proof

/-! ## Decoder and encoder (R50, R53) -/

/-- Each branch of the dispatcher answers the instruction whose encoding starts with the tested opcode
and goes on with the operand bytes as fetched. -/
theorem encode_prefix_of_decode {f : Fetched} {i : Instr} (h : decode f = .ok i) :
    encode i <+: fetchedBytes f := by
  have ho : opcodeOf i = f.opcode := (decode_opcode h).symm
  unfold decode at h
  repeat' split at h
  all_goals cases h
  all_goals simpa [encode, opcodeOf, fetchedBytes] using ho

/-- The prefix fixes the opcode and the operand bytes the instruction has; with those, the dispatcher
evaluates to it. -/
theorem decode_of_encode_prefix {f : Fetched} {i : Instr} (h : encode i <+: fetchedBytes f) :
    decode f = .ok i := by
  obtain ⟨o, a, b⟩ := f
  cases i <;> simp only [encode, fetchedBytes, List.cons_prefix_cons, List.nil_prefix, and_true] at h
  case ldi | add | mul => obtain ⟨rfl, rfl, rfl⟩ := h; rfl
  case prn | pop | push | call => obtain ⟨rfl, rfl⟩ := h; rfl
  case ret | hlt => cases h; rfl

/-- Settles O49: one direction follows the branches of `decode`, the other the rows of `encode`. -/
theorem decodeAndEncodeAgree : Obligations.DecodeAndEncodeAgree :=
  fun _ _ => ⟨encode_prefix_of_decode, decode_of_encode_prefix⟩

/-- Settles O50: eleven closed evaluations of the decoder. -/
theorem wordsOfTheOpcodeMapDecode : Obligations.WordsOfTheOpcodeMapDecode := by
  unfold Obligations.WordsOfTheOpcodeMapDecode
  decide

/-! ## The unlisted opcodes (R55) -/

theorem opcodeOf_mem_opcodeMap (i : Instr) : opcodeOf i ∈ opcodeMap := by
  cases i <;> simp [opcodeOf, opcodeMap]

/-- The converse of `decode_error`: an instruction has one of the nine opcodes, so the decoder rejects
every other byte. -/
theorem decode_of_not_mem_opcodeMap {f : Fetched} (h : f.opcode ∉ opcodeMap) :
    decode f = .error (.invalidOpcode f.opcode) := by
  cases hd : decode f with
  | ok i => exact absurd (decode_opcode hd ▸ opcodeOf_mem_opcodeMap i) h
  | error e =>
    obtain ⟨o⟩ := e
    rw [(decode_error hd).1]

/-- Taking a duplicate-free part out of a duplicate-free list leaves the difference of the lengths. -/
theorem length_filter_not_mem {all part : List Byte} (hall : all.Nodup) (hpart : part.Nodup)
    (hsub : part ⊆ all) : (all.filter fun o => decide (o ∉ part)).length = all.length - part.length := by
  have hperm := List.subperm_append_diff_self_of_count_le
    (List.subperm_ext_iff.mp (hpart.subperm hsub))
  rw [hall.sdiff_eq_filter] at hperm
  rw [← hperm.length_eq, List.length_append, Nat.add_sub_cancel_left]

theorem nodup_bytes : ((List.range 256).map (BitVec.ofNat 8)).Nodup := by
  refine List.nodup_range.map_on fun m hm n hn h => ?_
  rw [List.mem_range] at hm hn
  simpa [Nat.mod_eq_of_lt, hm, hn] using congrArg BitVec.toNat h

theorem mem_bytes (o : Byte) : o ∈ (List.range 256).map (BitVec.ofNat 8) :=
  List.mem_map.mpr ⟨o.toNat, List.mem_range.mpr o.isLt, by simp⟩

/-- 247 of the 256 bytes are none of the nine opcodes. -/
theorem length_unlisted_opcodes :
    (((List.range 256).map (BitVec.ofNat 8)).filter fun o => decide (o ∉ opcodeMap)).length = 247 := by
  rw [length_filter_not_mem nodup_bytes (by decide) fun o _ => mem_bytes o, List.length_map,
    List.length_range]
  rfl

/-! ## Lengths (R50, R51) -/

theorem encode_length (i : Instr) : (encode i).length = lengthOf i := by
  cases i <;> rfl

/-- The length looked up from the opcode byte alone, by the formats F2, F0 and F1 of R53's table. -/
def lengthOfOpcode (o : Byte) : Nat :=
  if o ∈ [opcodeLdi, opcodeAdd, opcodeMul] then 3 else if o ∈ [opcodeRet, opcodeHlt] then 1 else 2

/-- The opcode fixes the length (R51). -/
theorem lengthOf_eq_lengthOfOpcode (i : Instr) : lengthOf i = lengthOfOpcode (opcodeOf i) := by
  cases i <;> rfl

theorem lengthOf_le (i : Instr) : lengthOf i ≤ 3 := by
  cases i <;> simp [lengthOf]

end Sys2Proof

namespace Sys2Proof.Machine

/-! ## The fault of an unlisted opcode (R111) -/

/-- A cycle takes the fault of its fetch or of its decoder (R65, R118). -/
theorem step_of_fetchDecode_error {s : State} {e : EarlyFault} (hr : s.run = .running)
    (h : fetchDecode s = .error e) : step s = .next (s.takeFault e.opcode e.raised) := by
  simp only [step, front, hr, h]

/-- Settles O10: the decoder rejects an unlisted byte, and the cycle takes the fault. -/
theorem unlistedOpcodeRaisesInvalidOpcode : Obligations.UnlistedOpcodeRaisesInvalidOpcode := by
  refine ⟨length_unlisted_opcodes, fun s hr hp ho => ?_⟩
  have hd : decode (fetchedAt s) = .error (.invalidOpcode (s.mem.read s.pc.toNat)) :=
    decode_of_not_mem_opcodeMap ho
  exact step_of_fetchDecode_error hr (fetchDecode_of_reject (fetch_of_le hp) hd)

/-! ## The advance of `pc` (R14) -/

/-- From an address where an instruction can be fetched, the advance does not wrap. -/
theorem advancePc_pc_toNat {s : State} {n : Nat} (hp : s.pc.toNat ≤ 0xFD) (hn : n ≤ 3) :
    (s.advancePc n).pc.toNat = s.pc.toNat + n := by
  simp only [State.advancePc_pc, BitVec.toNat_add, BitVec.toNat_ofNat]
  omega

/-- A completed instruction with operands, other than CALL, ends with the advance by its length. -/
theorem Completes.pc_eq_advancePc {i : Instr} {s t : State} (h : Completes i s t)
    (hl : 2 ≤ lengthOf i) (hcall : opcodeOf i ≠ opcodeCall) :
    t.pc = (s.advancePc (lengthOf i)).pc := by
  cases i with
  | ldi a b => obtain ⟨_, rfl⟩ := h; rfl
  | prn a => obtain ⟨_, rfl⟩ := h; rfl
  | add a b => obtain ⟨_, _, rfl⟩ := h; rfl
  | mul a b => obtain ⟨_, _, rfl⟩ := h; rfl
  | pop a => obtain ⟨_, rfl⟩ := h; rw [raiseSp_eq_setSp]; rfl
  | push a => obtain ⟨_, _, rfl⟩ := h; rfl
  | call a => exact absurd rfl hcall
  | ret => exact absurd hl (by decide)
  | hlt => exact absurd hl (by decide)

/-- Settles O42: an instruction that leaves the core running took no fault, so it completed. -/
theorem instructionLengthIsThePcAdvance : Obligations.InstructionLengthIsThePcAdvance := by
  refine ⟨encode_length, fun i j h => ?_, fun i s t _ hp hl hcall hx hrun => ?_⟩
  · rw [lengthOf_eq_lengthOfOpcode, lengthOf_eq_lengthOfOpcode, h]
  · rcases exec_cases hx with hc | ⟨e, -, rfl⟩
    · rw [hc.pc_eq_advancePc hl hcall, advancePc_pc_toNat hp (lengthOf_le i)]
    · cases hrun

end Sys2Proof.Machine
end

section
/-! PROOFS. The control cycle (40_control_cycle.md): the fetch and its fault (R66), what the cycle does once
the bytes are fetched (R65, R69), and HLT (R68). -/

namespace Sys2Proof.Machine

/-! ## The fetch fault (R66) -/

/-- At 0xFE and 0xFF no instruction runs, whatever the byte at `pc`. -/
theorem fetchFaultsOn_every_opcode (o : Byte) : fetchFaultsOn o := by
  rintro s hr hlo hhi rfl
  exact step_of_fetchDecode_error hr (fetchDecode_of_fault (fetch_of_last hlo hhi))

/-- At 0x100 not even the opcode byte can be read, so none is recorded. -/
theorem step_of_pc_eq_0x100 {s : State} (hr : s.run = .running) (hp : s.pc.toNat = 0x100) :
    step s = .next (s.faultedWith .outOfBounds none (some .mem) 0x100) := by
  rw [step_of_fetchDecode_error hr (fetchDecode_of_fault (fetch_of_beyond hp.ge)), hp]
  rfl

/-- Settles O9: the fetch in range, then the fetch fault below 0x100 and at 0x100. -/
theorem fetchReadsThreeBytesOrFaults : Obligations.FetchReadsThreeBytesOrFaults := by
  refine ⟨fun s hp => fetch_of_le hp, fun s hr hlo hhi => ?_⟩
  split
  case isTrue hp => exact step_of_pc_eq_0x100 hr hp
  case isFalse hp => exact fetchFaultsOn_every_opcode _ s hr hlo (by omega) rfl

/-! ## HLT (R68) -/

theorem exec_hlt (s : State) : exec .hlt s = .next { s with run := .halted } :=
  exec_of_completes (i := .hlt) rfl

/-- Settles O22: HLT's rule is one assignment to `run`, and its fetch can fault as any other's. -/
theorem hltHaltsAndChangesNothingElse : Obligations.HltHaltsAndChangesNothingElse :=
  ⟨rfl, exec_hlt, fetchFaultsOn_every_opcode _⟩

/-! ## The cycle (R65, R69) -/

/-- Settles O7: the hypotheses say that `i` is about to run. -/
theorem stepRunsTheDecodedInstruction : Obligations.StepRunsTheDecodedInstruction :=
  fun _ _ hr hp hd => AboutToRun.step_eq_exec ⟨hr, hp, hd⟩

/-- Halted and Faulted absorb a step (R18). -/
theorem step_of_terminal {s : State} (h : s.terminal) : step s = .next s := by
  cases hr : s.run with
  | running => exact absurd hr h
  | halted => simp only [step, front, hr]
  | faulted => simp only [step, front, hr]

/-- The decoder rejects only unlisted bytes, so one of the nine opcodes at `pc` makes an instruction
about to run (R55, R67). -/
theorem exists_aboutToRun_of_mem_opcodeMap {s : State} (hr : s.run = .running)
    (hp : s.pc.toNat ≤ 0xFD) (ho : s.mem.read s.pc.toNat ∈ opcodeMap) : ∃ i, AboutToRun s i := by
  cases hd : decode (fetchedAt s) with
  | ok i => exact ⟨i, hr, hp, hd⟩
  | error e =>
    obtain ⟨o⟩ := e
    exact absurd ho (decode_error hd).2

theorem exec_exists_next (i : Instr) (s : State) : ∃ t, exec i s = .next t := by
  rcases exec_answers i s with ⟨t, ht, -⟩ | ⟨_, -, ht⟩
  · exact ⟨t, ht⟩
  · exact ⟨_, ht⟩

/-- A step is total: it ends in the state it started from, in a fault of the fetch or of the decoder, or
as the decoded instruction ends (R65). -/
theorem step_exists_next (s : State) : ∃ t, step s = .next t := by
  by_cases hr : s.run = .running
  · cases hf : fetchDecode s with
    | ok i => simpa only [step, front, hr, hf] using exec_exists_next i s
    | error e => exact ⟨_, step_of_fetchDecode_error hr hf⟩
  · exact ⟨s, step_of_terminal hr⟩

/-- Settles O8: totality and the terminal states, then the three kinds of opcode byte. A byte of the nine,
0x01 among them, makes an instruction about to run, and the byte tells which. -/
theorem stepFollowsTheCycle : Obligations.StepFollowsTheCycle := by
  intro s
  refine ⟨step_exists_next s, step_of_terminal, fun hr hp =>
    ⟨fun ho => ?_, fun ho => ?_, fun ho => ?_⟩⟩
  · have hm : s.mem.read s.pc.toNat ∈ opcodeMap := ho ▸ by decide
    obtain ⟨i, hi⟩ := exists_aboutToRun_of_mem_opcodeMap hr hp hm
    obtain rfl : i = .hlt := opcodeOf_eq_hlt.mp (hi.read_pc ▸ ho)
    rw [hi.step_eq_exec, exec_hlt]
  · exact unlistedOpcodeRaisesInvalidOpcode.2 s hr hp ho
  · obtain ⟨i, hi⟩ := exists_aboutToRun_of_mem_opcodeMap hr hp ho
    exact ⟨i, hi.read_pc.symm, encode_prefix_of_decode hi.decoded, hi.step_eq_exec⟩

end Sys2Proof.Machine
end

section
/-! PROOFS. The data-movement family (41_data_movement.md): LDI and PRN alone (R81, R82), and LDI before
PRN (R83). The lemmas about an out-of-range register, the advance of `pc` and a PRN after a three-byte
instruction hold for the other families too. -/

namespace Sys2Proof.Machine

/-! ## What the register instructions share -/

/-- The fault of an out-of-range register operand, whatever the instruction (R113, R118). -/
theorem exec_of_firstBadRegister {i : Instr} {x : Byte} (h : i.firstBadRegister = some x) (s : State) :
    exec i s = .next (s.faultedWith .outOfBounds (some (opcodeOf i)) (some .reg) x.toNat) := by
  rcases exec_answers i s with ⟨t, -, hc⟩ | ⟨e, ⟨y, hy, -, -, rfl⟩ | ⟨hn, -⟩, hx⟩
  · cases hc.firstBadRegister.symm.trans h
  · cases hy.symm.trans h
    exact hx
  · cases hn.symm.trans h

theorem firstBadRegister_of_ge {i : Instr} {a : Byte} (ho : i.registerOperands = [a])
    (ha : 8 ≤ a.toNat) : i.firstBadRegister = some a := by
  rw [firstBadRegister_one ho, if_neg (Nat.not_lt.mpr ha)]

/-- The advance in the spelling of the statements, as a natural number taken to 9 bits (R14). -/
theorem advancePc_eq_setPc (s : State) (n : Nat) :
    s.advancePc n = s.setPc (BitVec.ofNat 9 (s.pc.toNat + n)) := by
  rw [State.advancePc, BitVec.ofNat_add, BitVec.ofNat_toNat, BitVec.setWidth_eq]

/-! ## LDI and PRN (R81, R82) -/

theorem exec_ldi (s : State) {a : Byte} (b : Byte) (ha : a.toNat < 8) :
    exec (.ldi a b) s = .next
      { s with regs := s.regs.set a.toNat b, pc := BitVec.ofNat 9 (s.pc.toNat + 3) } := by
  have hc : Completes (.ldi a b) s _ := ⟨ha, rfl⟩
  rw [exec_of_completes hc, advancePc_eq_setPc]
  rfl

theorem exec_prn (s : State) {a : Byte} (ha : a.toNat < 8) :
    exec (.prn a) s = .next
      { s with out := s.out ++ [s.regs[a.toNat]], pc := BitVec.ofNat 9 (s.pc.toNat + 2) } := by
  have hc : Completes (.prn a) s _ := ⟨ha, rfl⟩
  rw [exec_of_completes hc, advancePc_eq_setPc]
  rfl

/-- Settles O14: the completed load, the fault of its one register operand, and the fetch fault. -/
theorem ldiLoadsItsImmediate : Obligations.LdiLoadsItsImmediate :=
  ⟨fun _ _ => rfl, fun s _ b ha _ => exec_ldi s b ha,
    fun s _ _ ha => exec_of_firstBadRegister (firstBadRegister_of_ge rfl ha) s,
    fetchFaultsOn_every_opcode _⟩

/-- Settles O15: the completed output, the fault of its one register operand, and the fetch fault. -/
theorem prnEmitsItsRegister : Obligations.PrnEmitsItsRegister :=
  ⟨fun _ => rfl, fun s _ ha _ => exec_prn s ha,
    fun s _ ha => exec_of_firstBadRegister (firstBadRegister_of_ge rfl ha) s,
    fetchFaultsOn_every_opcode _⟩

/-! ## An instruction, then PRN (R83) -/

/-- The bytes of `i` at `pc` make it the instruction about to run (R53, R65). -/
theorem aboutToRun_of_encode_prefix {s : State} {i : Instr} (hr : s.run = .running)
    (hp : s.pc.toNat ≤ 0xFD) (h : encode i <+: fetchedBytes (fetchedAt s)) : AboutToRun s i :=
  ⟨hr, hp, decode_of_encode_prefix h⟩

theorem step_of_prn_at_pc {s : State} {a : Byte} (ha : a.toNat < 8) (hr : s.run = .running)
    (hp : s.pc.toNat ≤ 0xFD) (h0 : s.mem.read s.pc.toNat = 0x47#8)
    (h1 : s.mem.read (s.pc.toNat + 1) = a) :
    ∃ u, step s = .next u ∧ u.out = s.out ++ [s.getReg ⟨a.toNat, ha⟩] := by
  have hi : AboutToRun s (.prn a) := aboutToRun_of_encode_prefix hr hp
    ⟨[s.mem.read (s.pc.toNat + 2)], by simp [encode, fetchedBytes, fetchedAt, opcodePrn, h0, h1]⟩
  exact ⟨_, hi.step_eq_exec.trans (exec_prn s ha), rfl⟩

/-- The three-byte instructions, LDI, ADD and MUL, keep the PRN that follows them in memory, go on to it,
and leave the output to it. -/
theorem Completes.step_prn {i : Instr} {s t : State} {a : Byte} (hc : Completes i s t)
    (hl : lengthOf i = 3) (ha : a.toNat < 8) (hr : s.run = .running) (hp : s.pc.toNat ≤ 0xFA)
    (h3 : s.mem.read (s.pc.toNat + 3) = 0x47#8) (h4 : s.mem.read (s.pc.toNat + 4) = a) :
    ∃ u, step t = .next u ∧ u.out = s.out ++ [t.getReg ⟨a.toNat, ha⟩] := by
  have hpush : opcodeOf i ∉ pushOpcodes := fun h => by
    obtain ⟨b, rfl | rfl⟩ := opcodeOf_mem_pushOpcodes.mp h <;> cases hl
  have hprn : ∀ b, i ≠ .prn b := by rintro b rfl; cases hl
  have hhlt : i ≠ .hlt := by rintro rfl; cases hl
  have hcall : opcodeOf i ≠ opcodeCall := fun h => hpush (by rw [h]; decide)
  obtain ⟨hrun, -⟩ := hc.run_fault
  rw [if_neg hhlt, hr] at hrun
  have hpc : t.pc.toNat = s.pc.toNat + 3 := by
    rw [hc.pc_eq_advancePc (by omega) hcall, hl, advancePc_pc_toNat (by omega) (Nat.le_refl 3)]
  have hmem : t.mem = s.mem := hc.frame.mem hpush
  rw [← hc.frame.out hprn]
  exact step_of_prn_at_pc ha hrun (by omega) (by rw [hmem, hpc, h3]) (by rw [hmem, hpc, h4])

/-- Settles O43: LDI completes with `v` in `x[a]`, and the PRN after it emits that register. -/
theorem ldiThenPrnEmitsTheImmediate : Obligations.LdiThenPrnEmitsTheImmediate := by
  intro s a v ha hr hp h0 h1 h2 h3 h4
  have hi : AboutToRun s (.ldi a v) := aboutToRun_of_encode_prefix hr (by omega)
    ⟨[], by simp [encode, fetchedBytes, fetchedAt, opcodeLdi, h0, h1, h2]⟩
  have hc : Completes (.ldi a v) s _ := ⟨ha, rfl⟩
  obtain ⟨u, hu, hout⟩ := hc.step_prn rfl ha hr hp h3 h4
  refine ⟨_, u, hi.step_eq_exec.trans (exec_of_completes hc), hu, ?_⟩
  rw [hout]
  exact congrArg (s.out ++ [·]) (State.getReg_setReg_self s ⟨a.toNat, ha⟩ v)

end Sys2Proof.Machine
end

section
/-! PROOFS. The arithmetic family (42_arithmetic.md): the ALU (R85, R90), ADD and MUL alone (R87, R88), and
either of them before PRN (R91). -/

namespace Sys2Proof.Machine

/-! ## The ALU (R85, R90) -/

/-- The byte the ALU writes is its exact result modulo 256 (R89). -/
theorem toNat_ofNat_mod_256 (n : Nat) : (BitVec.ofNat 8 (n % 256)).toNat = n % 256 := by
  rw [BitVec.toNat_ofNat, Nat.mod_mod]

/-- Settles O28: both operations are one register write of a value computed beforehand, so with `i = j` the
register holds the result of its old value. -/
theorem aluWritesItsFirstRegisterOnly : Obligations.AluWritesItsFirstRegisterOnly := by
  intro i j s
  refine ⟨alu_add i j s, alu_mul i j s, fun n => alu_other n i j s, fun t h => ?_, fun t h => ?_⟩
  · cases (alu_add i i s).symm.trans h
    rw [State.getReg_setReg_self, toNat_ofNat_mod_256, Nat.two_mul]
  · cases (alu_mul i i s).symm.trans h
    rw [State.getReg_setReg_self, toNat_ofNat_mod_256]

/-! ## ADD and MUL (R87, R88) -/

theorem firstBadRegister_of_fst_ge {i : Instr} {a b : Byte} (ho : i.registerOperands = [a, b])
    (ha : 8 ≤ a.toNat) : i.firstBadRegister = some a := by
  rw [firstBadRegister_two ho, if_neg (Nat.not_lt.mpr ha)]

theorem firstBadRegister_of_snd_ge {i : Instr} {a b : Byte} (ho : i.registerOperands = [a, b])
    (ha : a.toNat < 8) (hb : 8 ≤ b.toNat) : i.firstBadRegister = some b := by
  rw [firstBadRegister_two ho, if_pos ha, if_neg (Nat.not_lt.mpr hb)]

theorem exec_add (s : State) {a b : Byte} (ha : a.toNat < 8) (hb : b.toNat < 8) :
    exec (.add a b) s = .next
      { s with
        regs := s.regs.set a.toNat
          (BitVec.ofNat 8 ((s.regs[a.toNat].toNat + s.regs[b.toNat].toNat) % 256))
        pc := BitVec.ofNat 9 (s.pc.toNat + 3) } := by
  have hc : Completes (.add a b) s _ := ⟨ha, hb, rfl⟩
  rw [exec_of_completes hc, advancePc_eq_setPc]
  rfl

theorem exec_mul (s : State) {a b : Byte} (ha : a.toNat < 8) (hb : b.toNat < 8) :
    exec (.mul a b) s = .next
      { s with
        regs := s.regs.set a.toNat
          (BitVec.ofNat 8 ((s.regs[a.toNat].toNat * s.regs[b.toNat].toNat) % 256))
        pc := BitVec.ofNat 9 (s.pc.toNat + 3) } := by
  have hc : Completes (.mul a b) s _ := ⟨ha, hb, rfl⟩
  rw [exec_of_completes hc, advancePc_eq_setPc]
  rfl

/-- Settles O16: the completed sum, the fault of each register operand in its order, and the fetch
fault. -/
theorem addWrapsModulo256 : Obligations.AddWrapsModulo256 :=
  ⟨fun _ _ => rfl, fun s _ _ ha hb _ => exec_add s ha hb,
    fun s _ _ ha => exec_of_firstBadRegister (firstBadRegister_of_fst_ge rfl ha) s,
    fun s _ _ ha hb => exec_of_firstBadRegister (firstBadRegister_of_snd_ge rfl ha hb) s,
    fetchFaultsOn_every_opcode _⟩

/-- Settles O17: the completed product, the fault of each register operand in its order, and the fetch
fault. -/
theorem mulKeepsTheLowByte : Obligations.MulKeepsTheLowByte :=
  ⟨fun _ _ => rfl, fun s _ _ ha hb _ => exec_mul s ha hb,
    fun s _ _ ha => exec_of_firstBadRegister (firstBadRegister_of_fst_ge rfl ha) s,
    fun s _ _ ha hb => exec_of_firstBadRegister (firstBadRegister_of_snd_ge rfl ha hb) s,
    fetchFaultsOn_every_opcode _⟩

/-! ## ADD or MUL, then PRN (R91) -/

/-- A three-byte instruction that leaves `n` modulo 256 in `x[a]`, then PRN of that register: the two
cycles emit `n` modulo 256. -/
theorem Completes.two_steps_emit {i : Instr} {s t : State} {a : Byte} {n : Nat}
    (hc : Completes i s t) (hi : AboutToRun s i) (hl : lengthOf i = 3) (ha : a.toNat < 8)
    (hv : t.getReg ⟨a.toNat, ha⟩ = BitVec.ofNat 8 (n % 256)) (hp : s.pc.toNat ≤ 0xFA)
    (h3 : s.mem.read (s.pc.toNat + 3) = 0x47#8) (h4 : s.mem.read (s.pc.toNat + 4) = a) :
    ∃ t u v, step s = .next t ∧ step t = .next u ∧ u.out = s.out ++ [v] ∧ v.toNat = n % 256 := by
  obtain ⟨u, hu, hout⟩ := hc.step_prn hl ha hi.running hp h3 h4
  refine ⟨t, u, _, hi.step_eq_exec.trans (exec_of_completes hc), hu, hout, ?_⟩
  rw [hv, toNat_ofNat_mod_256]

/-- Settles O44: the opcode byte tells which of the two instructions is about to run; it completes with
the sum or product in `x[a]`, and the PRN after it emits that register. -/
theorem arithmeticThenPrnEmitsTheWrappedResult :
    Obligations.ArithmeticThenPrnEmitsTheWrappedResult := by
  intro s a b ha hb hr hp h1 h2 h3 h4
  refine ⟨fun h0 => ?_, fun h0 => ?_⟩
  · have hi : AboutToRun s (.add a b) := aboutToRun_of_encode_prefix hr (by omega)
      ⟨[], by simp [encode, fetchedBytes, fetchedAt, opcodeAdd, h0, h1, h2]⟩
    have hc : Completes (.add a b) s _ := ⟨ha, hb, rfl⟩
    exact hc.two_steps_emit hi rfl ha (State.getReg_setReg_self s ⟨a.toNat, ha⟩ _) hp h3 h4
  · have hi : AboutToRun s (.mul a b) := aboutToRun_of_encode_prefix hr (by omega)
      ⟨[], by simp [encode, fetchedBytes, fetchedAt, opcodeMul, h0, h1, h2]⟩
    have hc : Completes (.mul a b) s _ := ⟨ha, hb, rfl⟩
    exact hc.two_steps_emit hi rfl ha (State.getReg_setReg_self s ⟨a.toNat, ha⟩ _) hp h3 h4

end Sys2Proof.Machine
end

section
/-! PROOFS. The stack family (43_stack.md): PUSH and POP alone (R94, R95), a POP after a PUSH (R96), and the
top boundary (R97). -/

namespace Sys2Proof.Machine

/-! ## The stack pointer's moves in the spelling of the statements (R15) -/

theorem byte_sub_one_eq_ofNat {v : Byte} (h : v ≠ 0#8) : v - 1#8 = BitVec.ofNat 8 (v.toNat - 1) := by
  bv_omega

theorem byte_add_one_eq_ofNat (v : Byte) : v + 1#8 = BitVec.ofNat 8 (v.toNat + 1) := by
  rw [BitVec.ofNat_add, BitVec.ofNat_toNat, BitVec.setWidth_eq]

/-! ## PUSH and POP (R94, R95) -/

/-- PUSH and CALL at `sp = 0` take StackUnderflow, once their register operand is legal (R114, R116). -/
theorem exec_of_sp_zero {i : Instr} {s : State} (hi : opcodeOf i ∈ pushOpcodes)
    (hb : i.firstBadRegister = none) (hs : s.sp = 0#8) :
    exec i s = .next (s.faultedWith .stackUnderflow (some (opcodeOf i)) none 0) := by
  have hr : Raises i s (.stackUnderflow s.sp) := .inr ⟨hb, hi, hs, rfl⟩
  rw [exec_of_raises hr, takeFault_eq, hs]
  rfl

theorem firstBadRegister_of_lt {i : Instr} {a : Byte} (ho : i.registerOperands = [a])
    (ha : a.toNat < 8) : i.firstBadRegister = none := by
  rw [firstBadRegister_one ho, if_pos ha]

theorem exec_push (s : State) {a : Byte} (ha : a.toNat < 8) (hs : s.sp ≠ 0#8) :
    exec (.push a) s = .next
      { s with
        sp := BitVec.ofNat 8 (s.sp.toNat - 1)
        pc := BitVec.ofNat 9 (s.pc.toNat + 2)
        mem := s.mem.write (s.sp.toNat - 1) s.regs[a.toNat] } := by
  have hc : Completes (.push a) s _ := ⟨ha, hs, rfl⟩
  rw [exec_of_completes hc, advancePc_eq_setPc, pushAddress_of_ne hs, byte_sub_one_eq_ofNat hs]
  rfl

theorem exec_push_of_sp_zero (s : State) {a : Byte} (ha : a.toNat < 8) (hs : s.sp = 0#8) :
    exec (.push a) s = .next (s.faultedWith .stackUnderflow (some 0x45#8) none 0) :=
  exec_of_sp_zero (opcodeOf_mem_pushOpcodes.mpr ⟨a, .inl rfl⟩) (firstBadRegister_of_lt rfl ha) hs

theorem exec_pop (s : State) {a : Byte} (ha : a.toNat < 8) :
    exec (.pop a) s = .next
      { s with
        regs := s.regs.set a.toNat (s.mem.read s.sp.toNat)
        sp := if s.sp = 0xFF#8 then 0xFF#8 else BitVec.ofNat 8 (s.sp.toNat + 1)
        pc := BitVec.ofNat 9 (s.pc.toNat + 2) } := by
  have hc : Completes (.pop a) s _ := ⟨ha, rfl⟩
  have hsp : (if s.sp = 0xFF#8 then s.sp else s.sp + 1#8) =
      if s.sp = 0xFF#8 then 0xFF#8 else BitVec.ofNat 8 (s.sp.toNat + 1) := by
    split
    case isTrue h => exact h
    case isFalse => exact byte_add_one_eq_ofNat s.sp
  rw [exec_of_completes hc, advancePc_eq_setPc, raiseSp_eq_setSp, ← hsp]
  rfl

/-- Settles O18: the completed push, read back by `Memory.read_write`, the fault of its register operand,
StackUnderflow at `sp = 0`, and the fetch fault. -/
theorem pushStoresBelowTheTop : Obligations.PushStoresBelowTheTop :=
  ⟨fun _ => rfl,
    fun s _ ha _ hs => ⟨_, exec_push s ha hs, rfl, Memory.read_write s.mem _ _⟩,
    fun s _ ha => exec_of_firstBadRegister (firstBadRegister_of_ge rfl ha) s,
    fun s _ ha hs => exec_push_of_sp_zero s ha hs, fetchFaultsOn_every_opcode _⟩

/-- Settles O19: the completed pop, the fault of its one register operand, and the fetch fault. -/
theorem popLoadsTheTop : Obligations.PopLoadsTheTop :=
  ⟨fun _ => rfl, fun s _ ha _ => exec_pop s ha,
    fun s _ ha => exec_of_firstBadRegister (firstBadRegister_of_ge rfl ha) s,
    fetchFaultsOn_every_opcode _⟩

/-! ## A POP after a PUSH (R96) -/

/-- A PUSH leaves `sp` below 0xFF, so the POP after it undoes the decrement and reads the byte pushed. -/
theorem Completes.exec_pop_of_push {a b : Byte} {s t : State} (hc : Completes (.push a) s t)
    (ha : a.toNat < 8) (hb : b.toNat < 8) :
    ∃ u, exec (.pop b) t = .next u ∧ u.sp = s.sp ∧ u.regs = s.regs.set b.toNat s.regs[a.toNat] := by
  obtain ⟨-, hs, rfl⟩ := hc
  refine ⟨_, exec_pop _ hb, ?_, ?_⟩
  · have hne : s.sp - 1#8 ≠ 0xFF#8 := by bv_omega
    change (if s.sp - 1#8 = 0xFF#8 then 0xFF#8 else BitVec.ofNat 8 ((s.sp - 1#8).toNat + 1)) = s.sp
    rw [if_neg hne, ← byte_add_one_eq_ofNat, BitVec.sub_add_cancel]
  · have hread : (s.mem.write (pushAddress s) s.regs[a.toNat]).read (s.sp - 1#8).toNat =
        s.regs[a.toNat] := (Memory.read_write ..).trans (if_pos rfl)
    exact congrArg (s.regs.set b.toNat ·) hread

/-- Settles O45: the PUSH completes for `sp` from 1, the POP undoes it; at 0 the PUSH faults. -/
theorem pushThenPopRoundTrips : Obligations.PushThenPopRoundTrips := by
  refine ⟨fun s a b ha hb hs => ?_, fun s a ha hs => ⟨_, exec_push_of_sp_zero s ha hs, rfl⟩⟩
  have hc : Completes (.push a) s _ := ⟨ha, hs, rfl⟩
  obtain ⟨u, hu, hsp, hregs⟩ := hc.exec_pop_of_push ha hb
  exact ⟨_, u, exec_of_completes hc, hu, hsp, hregs⟩

/-! ## The top boundary (R97) -/

theorem exec_pop_of_sp_top {s : State} {a : Byte} (ha : a.toNat < 8) (hs : s.sp = 0xFF#8) :
    exec (.pop a) s = .next
      { s with
        regs := s.regs.set a.toNat (s.mem.read 0xFF), pc := BitVec.ofNat 9 (s.pc.toNat + 2) } := by
  rw [exec_pop s ha, if_pos hs, hs]
  rfl

/-- The only byte a step can change is at `sp - 1`, and no `sp` puts that at 0xFF. -/
theorem step_keeps_top_cell {s t : State} (h : step s = .next t) :
    t.mem.read 0xFF = s.mem.read 0xFF := by
  by_contra hne
  obtain ⟨haddr, -⟩ := onlyPushAndCallWriteMemory s t h 0xFF hne
  have := s.sp.isLt
  omega

/-- Settles O40: the POP whose `sp` is held, the round trip at `sp = 0xFF` through cell 0xFE, and the cell
no step writes. -/
theorem topBoundaryIsIdempotent : Obligations.TopBoundaryIsIdempotent := by
  refine ⟨fun s a ha _ hs => exec_pop_of_sp_top ha hs, fun s a b ha hb hs => ?_,
    fun s t h => step_keeps_top_cell h⟩
  have hne : s.sp ≠ 0#8 := by simp [hs]
  have hc : Completes (.push a) s _ := ⟨ha, hne, rfl⟩
  obtain ⟨u, hu, hsp, hregs⟩ := hc.exec_pop_of_push ha hb
  refine ⟨_, u, exec_of_completes hc, ?_, ?_, hu, hsp.trans hs, ?_⟩
  · change s.sp - 1#8 = 0xFE#8
    rw [hs]
    rfl
  · have hadd : pushAddress s = 0xFE := by rw [pushAddress_of_ne hne, hs]; rfl
    exact (Memory.read_write ..).trans (if_pos hadd.symm)
  · simp [hregs]

end Sys2Proof.Machine
end

section
/-! PROOFS. The call-return family (44_call_return.md): CALL and RET alone (R101, R102), a RET after a CALL
(R103), a RET after a RET (R105), and the stack that PUSHes and CALLs use up (R104). -/

namespace Sys2Proof.Machine

/-! ## CALL and RET (R101, R102) -/

/-- The widening in the spelling of the statements (R7). -/
theorem zext9_eq_ofNat (v : Byte) : zext9 v = BitVec.ofNat 9 v.toNat :=
  (BitVec.ofNat_toNat 9 v).symm

/-- No byte is too large for `pc` (R13). -/
theorem zext9_toNat (v : Byte) : (zext9 v).toNat = v.toNat :=
  BitVec.toNat_setWidth_of_le (by decide)

theorem exec_call (s : State) {a : Byte} (ha : a.toNat < 8) (hs : s.sp ≠ 0#8) :
    exec (.call a) s = .next
      { s with
        sp := BitVec.ofNat 8 (s.sp.toNat - 1)
        pc := BitVec.ofNat 9 s.regs[a.toNat].toNat
        mem := s.mem.write (s.sp.toNat - 1) (returnAddress s) } := by
  have hc : Completes (.call a) s _ := ⟨ha, hs, rfl⟩
  rw [exec_of_completes hc, pushAddress_of_ne hs, byte_sub_one_eq_ofNat hs, zext9_eq_ofNat]
  rfl

theorem exec_call_of_sp_zero (s : State) {a : Byte} (ha : a.toNat < 8) (hs : s.sp = 0#8) :
    exec (.call a) s = .next (s.faultedWith .stackUnderflow (some 0x50#8) none 0) :=
  exec_of_sp_zero (opcodeOf_mem_pushOpcodes.mpr ⟨a, .inr rfl⟩) (firstBadRegister_of_lt rfl ha) hs

theorem exec_ret (s : State) : exec .ret s = .next (s.setPc (zext9 (s.mem.read s.sp.toNat))) :=
  exec_of_completes (i := .ret) rfl

/-- Settles O20: the completed call, whose stored byte `returnAddress_toNat` shows untruncated, the fault of
its register operand, StackUnderflow at `sp = 0`, and the fetch fault. -/
theorem callPushesReturnAddressAndJumps : Obligations.CallPushesReturnAddressAndJumps := by
  refine ⟨fun _ => rfl, fun s a ha hp hs => ⟨_, exec_call s ha hs, rfl, fun addr hne => ?_, ?_⟩,
    fun s _ ha => exec_of_firstBadRegister (firstBadRegister_of_ge rfl ha) s,
    fun s _ ha hs => exec_call_of_sp_zero s ha hs, fetchFaultsOn_every_opcode _⟩
  · exact (Memory.read_write ..).trans (if_neg hne)
  · rw [Memory.read_write, if_pos rfl, returnAddress_toNat hp]

/-- Settles O21: RET completes in every state, and its fetch can fault as any other's. -/
theorem retReadsTheTopWithoutPopping : Obligations.RetReadsTheTopWithoutPopping :=
  ⟨rfl, fun s => by rw [exec_ret, zext9_eq_ofNat]; rfl, fetchFaultsOn_every_opcode _⟩

/-! ## A RET after a CALL, and after a RET (R103, R105) -/

/-- The return address is the top of the stack that CALL leaves. -/
theorem Completes.read_top_of_call {a : Byte} {s t : State} (h : Completes (.call a) s t) :
    t.mem.read t.sp.toNat = returnAddress s := by
  obtain ⟨-, -, rfl⟩ := h
  exact (Memory.read_write ..).trans (if_pos rfl)

/-- Settles O46: the byte RET reads at `u` is the return address the CALL stored (`read_top_of_call`); RET
keeps it and `sp`. -/
theorem retResumesAfterTheCall : Obligations.RetResumesAfterTheCall := by
  intro s t u a ha hp hs ht hsp hread
  have hc : Completes (.call a) s _ := ⟨ha, hs, rfl⟩
  obtain rfl := Host.Outcome.next.inj ((exec_of_completes hc).symm.trans ht)
  have htop : (u.mem.read u.sp.toNat).toNat = s.pc.toNat + 2 := by
    rw [hsp, hread, hc.read_top_of_call, returnAddress_toNat hp]
  have hlow : u.sp.toNat = s.sp.toNat - 1 := (congrArg BitVec.toNat hsp).trans (pushAddress_of_ne hs)
  exact ⟨_, exec_ret u, (zext9_toNat _).trans htop, hlow, htop⟩

/-- Settles O47: the first RET changes only `pc`, so the second reads the same cell and stores in `pc` what
stands there. -/
theorem secondRetGoesNowhereNew : Obligations.SecondRetGoesNowhereNew := by
  intro s t h
  obtain rfl := Host.Outcome.next.inj ((exec_ret s).symm.trans h)
  exact exec_ret _

/-! ## PUSHes and CALLs that nothing pops (R104) -/

theorem execAll_cons_of_next {i : Instr} {is : List Instr} {s t : State} (h : exec i s = .next t) :
    execAll (i :: is) s = execAll is t := by
  rw [execAll, h]

/-- A PUSH or CALL with a legal operand takes one byte of a stack that has one. -/
theorem exec_takes_one_byte {i : Instr} {s : State} (hs : s.sp ≠ 0#8)
    (hi : ∃ a : Byte, a.toNat < 8 ∧ (i = .push a ∨ i = .call a)) :
    ∃ t, exec i s = .next t ∧ t.sp.toNat = s.sp.toNat - 1 ∧ t.run = s.run := by
  obtain ⟨a, ha, rfl | rfl⟩ := hi
  · exact ⟨_, exec_of_completes ⟨ha, hs, rfl⟩, pushAddress_of_ne hs, rfl⟩
  · exact ⟨_, exec_of_completes ⟨ha, hs, rfl⟩, pushAddress_of_ne hs, rfl⟩

theorem execAll_takes_one_byte_each {is : List Instr}
    (his : ∀ i ∈ is, ∃ a : Byte, a.toNat < 8 ∧ (i = .push a ∨ i = .call a)) {s : State}
    (hlen : is.length ≤ s.sp.toNat) :
    ∃ t, execAll is s = .next t ∧ t.sp.toNat = s.sp.toNat - is.length ∧ t.run = s.run := by
  induction is generalizing s with
  | nil => exact ⟨s, rfl, rfl, rfl⟩
  | cons i is ih =>
    obtain ⟨hi, his⟩ := List.forall_mem_cons.mp his
    rw [List.length_cons] at hlen ⊢
    have hs : s.sp ≠ 0#8 := by bv_omega
    obtain ⟨t, ht, htsp, htrun⟩ := exec_takes_one_byte hs hi
    obtain ⟨u, hu, husp, hurun⟩ := ih his (s := t) (by omega)
    exact ⟨u, (execAll_cons_of_next ht).trans hu, by omega, hurun.trans htrun⟩

/-- Settles O48: one byte each by induction on the list; 243 of them take `sp` from 0xF3 to 0, where the
next one underflows. -/
theorem unpoppedPushesExhaustTheStack : Obligations.UnpoppedPushesExhaustTheStack := by
  intro is s his
  refine ⟨execAll_takes_one_byte_each his, fun hsp hlen => ?_⟩
  have hbytes : is.length = s.sp.toNat := by rw [hlen, hsp]; rfl
  obtain ⟨t, ht, htsp, htrun⟩ := execAll_takes_one_byte_each his hbytes.le
  have hempty : t.sp = 0#8 := BitVec.eq_of_toNat_eq (by rw [htsp, hbytes, Nat.sub_self]; rfl)
  exact ⟨t, ht, htrun, fun _ ha =>
    ⟨exec_push_of_sp_zero t ha hempty, exec_call_of_sp_zero t ha hempty⟩⟩

end Sys2Proof.Machine
end

section
/-! PROOFS. The exceptions family (60_exceptions.md): the faults of the operands and of the stack (R113,
R114), the priority order (R116, R121), what a faulting cycle records and keeps (R110, R118), and how an ended
run stays and is reported (R119, R120). -/

namespace Sys2Proof.Machine

/-! ## Operand and stack faults (R113, R114) -/

theorem le_of_firstBadRegister {i : Instr} {x : Byte} (h : i.firstBadRegister = some x) :
    8 ≤ x.toNat := by
  simpa using List.find?_some h

/-- LDI's immediate is not among its register operands (R81). -/
theorem firstBadRegister_ldi (a b : Byte) :
    (Instr.ldi a b).firstBadRegister = if 8 ≤ a.toNat then some a else none := by
  rw [firstBadRegister_one rfl]
  simp only [← Nat.not_le, ite_not]

/-- Settles O23: the search for the first bad operand finds only indices above 7, and the instruction raises
on the one it finds. -/
theorem firstBadRegisterIndexIsRecorded : Obligations.FirstBadRegisterIndexIsRecorded :=
  ⟨fun _ s _ h => ⟨le_of_firstBadRegister h, exec_of_firstBadRegister h s⟩, firstBadRegister_ldi⟩

/-- Settles O24, from the stack fault of each of the two pushing instructions. -/
theorem pushAtZeroRaisesStackUnderflow : Obligations.PushAtZeroRaisesStackUnderflow :=
  fun s _ ha hs => ⟨exec_push_of_sp_zero s ha hs, exec_call_of_sp_zero s ha hs⟩

/-! ## How a running cycle comes to Faulted (R110, R118) -/

theorem Completes.run_ne_faulted {i : Instr} {s t : State} (h : Completes i s t)
    (hr : s.run = .running) : t.run ≠ .faulted := by
  rw [h.run_fault.1, hr]
  split <;> nofun

/-- Inversion of a faulting cycle: the fault comes from the fetch or the decoder, or the instruction raised
it; either way it is taken in the state before the cycle. -/
theorem step_fault_cases {s t : State} (hr : s.run = .running) (h : step s = .next t)
    (ht : t.run = .faulted) :
    (∃ e, fetchDecode s = .error e ∧ t = s.takeFault e.opcode e.raised) ∨
    ∃ i e, Raises i s e ∧ t = s.takeFault (some (opcodeOf i)) e := by
  rcases step_cases h with ⟨hterm, -⟩ | ⟨-, e, he, rfl⟩ | ⟨i, -, hx⟩
  · exact absurd hr hterm
  · exact .inl ⟨e, he, rfl⟩
  · rcases exec_cases hx with hc | ⟨e, he, rfl⟩
    · exact absurd ht (hc.run_ne_faulted hr)
    · exact .inr ⟨i, e, he, rfl⟩

/-- Settles O26: both kinds of fault are taken in `s` itself. -/
theorem faultsArePrecise : Obligations.FaultsArePrecise := by
  intro s t hr h ht
  rcases step_fault_cases hr h ht with ⟨e, -, rfl⟩ | ⟨i, e, -, rfl⟩
  · exact ⟨_, rfl, rfl⟩
  · exact ⟨_, rfl, rfl⟩

/-- No reachable row of R110's table has one of the two causes that nothing raises (R115, R117). -/
theorem FaultRecord.Documented.cause_ne {r : FaultRecord} {sp : Byte} (h : r.Documented sp) :
    r.cause ≠ .unsupportedOperation ∧ r.cause ≠ .stackOverflow := by
  rcases h with ⟨hc, -⟩ | ⟨hc, -⟩ | ⟨hc, -⟩ | ⟨hc, -⟩ <;> rw [hc] <;> exact ⟨nofun, nofun⟩

/-- The record of a faulting cycle holds its `pc` and is a reachable row of R110's table. -/
theorem step_fault_documented {s t : State} (hr : s.run = .running) (hp : s.pc.toNat ≤ 0x100)
    (h : step s = .next t) (ht : t.run = .faulted) :
    ∃ r, t.fault = some r ∧ r.pc = s.pc ∧ r.Documented s.sp := by
  rcases step_fault_cases hr h ht with ⟨e, he, rfl⟩ | ⟨i, e, he, rfl⟩
  · exact ⟨_, rfl, rfl, documented_of_fetchDecode_error hp he⟩
  · exact ⟨_, rfl, rfl, he.documented⟩

theorem State.Inv.fault_eq_none {s : State} (h : s.Inv) (hs : s.safe) : s.fault = none := by
  cases hr : s.run with
  | running => exact h.running hr
  | halted => exact (h.halted hr).1
  | faulted => exact absurd hr hs

/-- Settles O27: the codes by evaluation, the recorded row by `step_fault_documented`, no record outside
Faulted by the invariant, and the ALU's third arm. -/
theorem onlyTableFaultsAreRecorded : Obligations.OnlyTableFaultsAreRecorded := by
  refine ⟨⟨rfl, rfl, rfl, rfl, rfl, rfl⟩, fun s t hr hp h ht => ?_, fun s hi hs => ?_, alu_other⟩
  · obtain ⟨r, hf, hpc, hd⟩ := step_fault_documented hr hp h ht
    exact ⟨r, hf, hpc, hd, hd.cause_ne⟩
  · rw [hi.fault_eq_none hs]
    rfl

/-! ## The expected fault, one equation per case (R116, R121) -/

theorem expectedFault_of_pc_gt {s : State} (h : 0xFD < s.pc.toNat) :
    expectedFault s = some (.outOfBounds, some .mem, 0x100) := if_pos h

theorem expectedFault_of_reject {s : State} {o : Byte} (hp : s.pc.toNat ≤ 0xFD)
    (hd : decode (fetchedAt s) = .error (.invalidOpcode o)) :
    expectedFault s = some (.invalidOpcode, none, o.toNat) := by
  rw [expectedFault, if_neg (Nat.not_lt.mpr hp), hd]

theorem AboutToRun.expectedFault_of_bad {s : State} {i : Instr} {x : Byte} (h : AboutToRun s i)
    (hx : i.firstBadRegister = some x) :
    expectedFault s = some (.outOfBounds, some .reg, x.toNat) := by
  simp only [expectedFault, if_neg (Nat.not_lt.mpr h.inRange), h.decoded, hx]

theorem AboutToRun.expectedFault_of_legal {s : State} {i : Instr} (h : AboutToRun s i)
    (hn : i.firstBadRegister = none) :
    expectedFault s =
      if opcodeOf i ∈ pushOpcodes ∧ s.sp = 0#8 then some (.stackUnderflow, none, 0) else none := by
  simp only [expectedFault, if_neg (Nat.not_lt.mpr h.inRange), h.decoded, hn]

/-! ## The fault taken is the expected one -/

/-- A fault before Execute is the expected one, and records the opcode byte unless `pc` is 0x100. -/
theorem expectedFault_of_fetchDecode_error {s : State} {e : EarlyFault} (hp : s.pc.toNat ≤ 0x100)
    (h : fetchDecode s = .error e) :
    expectedFault s = some (causeOf e.raised, spaceOf e.raised, infoOf e.raised) ∧
    e.opcode = if s.pc.toNat = 0x100 then none else some (s.mem.read s.pc.toNat) := by
  rcases fetchDecode_error h with ⟨hle, -, hd, rfl⟩ | ⟨hlo, hhi, rfl⟩ | ⟨hlo, rfl⟩
  · exact ⟨expectedFault_of_reject hle hd, (if_neg (by omega)).symm⟩
  · exact ⟨expectedFault_of_pc_gt hlo, (if_neg (by omega)).symm⟩
  · have hpc : s.pc.toNat = 0x100 := Nat.le_antisymm hp hlo
    rw [expectedFault_of_pc_gt (by omega), if_pos hpc, hpc]
    exact ⟨rfl, rfl⟩

theorem AboutToRun.expectedFault_of_raises {s : State} {i : Instr} {e : Raise} (h : AboutToRun s i)
    (he : Raises i s e) : expectedFault s = some (causeOf e, spaceOf e, infoOf e) := by
  rcases he with ⟨x, hx, -, -, rfl⟩ | ⟨hn, ho, hs, rfl⟩
  · exact h.expectedFault_of_bad hx
  · rw [h.expectedFault_of_legal hn, if_pos ⟨ho, hs⟩, hs]
    rfl

/-- An instruction that completes has legal operands, and a stack to push on if it pushes. -/
theorem AboutToRun.expectedFault_of_completes {s t : State} {i : Instr} (h : AboutToRun s i)
    (hc : Completes i s t) : expectedFault s = none := by
  rw [h.expectedFault_of_legal hc.firstBadRegister, if_neg fun ⟨ho, hs⟩ => (hc.push ho).1 hs]

/-- Settles O25: the three ways a running cycle ends, each with its equation for the expected fault. -/
theorem faultsFollowThePriorityOrder : Obligations.FaultsFollowThePriorityOrder := by
  intro s t hr hp h
  rcases step_cases h with ⟨hterm, -⟩ | ⟨-, e, he, rfl⟩ | ⟨i, hi, hx⟩
  · exact absurd hr hterm
  · obtain ⟨hexp, hop⟩ := expectedFault_of_fetchDecode_error hp he
    rw [hexp, ← hop]
    exact takeFault_eq s e.opcode e.raised
  · rcases exec_cases hx with hc | ⟨e, he, rfl⟩
    · rw [hi.expectedFault_of_completes hc]
      exact hc.run_ne_faulted hr
    · have hpc : s.pc.toNat ≠ 0x100 := by have := hi.inRange; omega
      rw [hi.expectedFault_of_raises he, if_neg hpc, hi.read_pc]
      exact takeFault_eq s _ e

/-! ## An ended run (R18, R119, R120, R146) -/

/-- A state that a step answers with itself is where every run from it ends, in any machine. -/
theorem run_of_step_eq_self {M : Host.Core} {s : M.State} (h : M.step s = .next s) (n : Nat) :
    M.run n s = .next s := by
  induction n with
  | zero => rfl
  | succ n ih => simp only [Host.Core.run, h, ih]

/-- Settles O13: a step answers a terminal state with itself. -/
theorem terminalStatesAbsorbEveryRun : Obligations.TerminalStatesAbsorbEveryRun :=
  fun n _ h => run_of_step_eq_self (M := Sys2Proof.core) (step_of_terminal h) n

theorem exitStatus_of_running {s : State} (h : s.run = .running) : exitStatus s = none := by
  rw [exitStatus, h]

theorem exitStatus_of_halted {s : State} (h : s.run = .halted) : exitStatus s = some 0 := by
  rw [exitStatus, h]

theorem exitStatus_of_record {s : State} {r : FaultRecord} (h : s.run = .faulted)
    (hf : s.fault = some r) :
    exitStatus s = if r.cause = .invalidOpcode then some 1 else some Config.exitStatusFault := by
  rw [exitStatus, h, hf]

theorem exitStatusFault_ne_zero : Config.exitStatusFault ≠ 0 := Nat.succ_ne_zero _

/-- Failure is reported for every faulted state, even for one without a record. -/
theorem exitStatus_of_faulted {s : State} (h : s.run = .faulted) :
    ∃ n, n ≠ 0 ∧ exitStatus s = some n := by
  cases hf : s.fault with
  | none => exact ⟨_, exitStatusFault_ne_zero, by rw [exitStatus, h, hf]⟩
  | some r =>
    rw [exitStatus_of_record h hf]
    split
    · exact ⟨1, Nat.one_ne_zero, rfl⟩
    · exact ⟨_, exitStatusFault_ne_zero, rfl⟩

theorem Platform.inspect_eq_some {h : Platform} {s : State} :
    h.inspect = some s ↔ h.core.terminal ∧ s = h.core := by
  cases hr : h.core.run <;> simp [Platform.inspect, State.terminal, hr, eq_comm]

/-- Settles O6: one equation of `exitStatus` per run state, and `inspect_eq_some`. -/
theorem exitStatusTellsHowTheRunEnded : Obligations.ExitStatusTellsHowTheRunEnded :=
  ⟨fun _ => exitStatus_of_running, fun _ => exitStatus_of_halted,
    fun _ _ h hf hc => (exitStatus_of_record h hf).trans (if_pos hc),
    fun _ => exitStatus_of_faulted, fun _ _ => Platform.inspect_eq_some⟩

end Sys2Proof.Machine
end

section
/-! PROOFS. The reset-and-hazards family (70_reset_and_hazards.md): the boot order (R143), what Load leaves and
refuses (R142), how each host action acts on the core (R141, R146), and that a running core is never stuck (R157). -/

namespace Sys2Proof.Machine

/-! ## The boot order, one equation per action and side of the Load (R143) -/

theorem Platform.act_load_of_awaiting (p : Config.ResetParams) (image : List Byte) {h : Platform}
    (hq : h.phase = .awaitingLoad) :
    Platform.act p (.load image) h = Platform.lift .loaded (loadImage image h.core) := by
  simp only [Platform.act, hq]

theorem Platform.act_load_of_ne_awaiting (p : Config.ResetParams) (image : List Byte) {h : Platform}
    (hq : h.phase ≠ .awaitingLoad) : Platform.act p (.load image) h = .refused .loadOutOfOrder := by
  cases hp : h.phase with
  | awaitingLoad => exact absurd hp hq
  | loaded => simp only [Platform.act, hp]
  | started => simp only [Platform.act, hp]

theorem Platform.act_step_of_awaiting (p : Config.ResetParams) {h : Platform}
    (hq : h.phase = .awaitingLoad) : Platform.act p .step h = .refused .stepBeforeLoad := by
  simp only [Platform.act, hq]

theorem Platform.act_step_of_ne_awaiting (p : Config.ResetParams) {h : Platform}
    (hq : h.phase ≠ .awaitingLoad) :
    Platform.act p .step h = Platform.lift .started (step h.core) := by
  cases hp : h.phase with
  | awaitingLoad => exact absurd hp hq
  | loaded => simp only [Platform.act, hp]
  | started => simp only [Platform.act, hp]

/-! ## Load (R142) -/

theorem Memory.read_writeAll_zero_of_lt (m : Memory) {image : List Byte} {addr : Nat}
    (h : addr < image.length) : (m.writeAll 0 image).read addr = image[addr] := by
  rw [Memory.read_writeAll, dif_pos (by omega)]
  rfl

theorem Memory.read_writeAll_zero_of_ge (m : Memory) {image : List Byte} {addr : Nat}
    (h : image.length ≤ addr) : (m.writeAll 0 image).read addr = m.read addr := by
  rw [Memory.read_writeAll, dif_neg (by omega)]

/-- Inversion: a Load that is not refused replaces memory alone. -/
theorem loadImage_eq_next {image : List Byte} {s t : State} (h : loadImage image s = .next t) :
    t = s.setMem (s.mem.writeAll 0 image) := by
  rcases Nat.lt_or_ge Config.memSize image.length with hl | hl
  · cases (loadImage_of_gt hl s).symm.trans h
  · exact (Host.Outcome.next.inj ((loadImage_of_le hl s).symm.trans h)).symm

/-- Settles O3: the two kinds of cell after the consecutive stores, the refusal of core and platform, and the
bound of `memWrite`. -/
theorem loadCopiesTheImageFromZero : Obligations.LoadCopiesTheImageFromZero := by
  refine ⟨fun image s hl => ?_, fun image s p h hl => ⟨loadImage_of_gt hl s, fun hq => ?_⟩,
    fun s v => memWrite_of_ge s (Nat.le_refl _) v⟩
  · exact ⟨_, loadImage_of_le hl s, rfl, fun _ h => Memory.read_writeAll_zero_of_lt s.mem h,
      fun _ h => Memory.read_writeAll_zero_of_ge s.mem h⟩
  · rw [Platform.act_load_of_awaiting p image hq, loadImage_of_gt hl h.core]
    rfl

/-! ## What a host action does to the core (R141, R146) -/

/-- Inversion of a host action that has an effect: a Reset, the one Load, or a Step after it. -/
theorem Platform.act_cases {p : Config.ResetParams} {a : HostAction} {h h' : Platform}
    (ha : Platform.act p a h = .next h') :
    (a = .reset ∧ h' = Platform.construct p) ∨
    (∃ image t, a = .load image ∧ h.phase = .awaitingLoad ∧ loadImage image h.core = .next t ∧
      h' = ⟨.loaded, t⟩) ∨
    (a = .step ∧ h.phase ≠ .awaitingLoad ∧ ∃ t, step h.core = .next t ∧ h' = ⟨.started, t⟩) := by
  cases a with
  | reset => cases ha; exact .inl ⟨rfl, rfl⟩
  | load image =>
    by_cases hq : h.phase = .awaitingLoad
    · rw [Platform.act_load_of_awaiting p image hq] at ha
      obtain ⟨t, ht, rfl⟩ := Platform.lift_eq_next ha
      exact .inr (.inl ⟨image, t, rfl, hq, ht, rfl⟩)
    · cases (Platform.act_load_of_ne_awaiting p image hq).symm.trans ha
  | step =>
    by_cases hq : h.phase = .awaitingLoad
    · cases (Platform.act_step_of_awaiting p hq).symm.trans ha
    · rw [Platform.act_step_of_ne_awaiting p hq] at ha
      exact .inr (.inr ⟨rfl, hq, Platform.lift_eq_next ha⟩)

/-- Settles O5: of the other two actions, Load replaces memory alone and Step answers an ended core with
itself. -/
theorem onlyResetLeavesAnEndedRun : Obligations.OnlyResetLeavesAnEndedRun := by
  refine ⟨fun _ _ => rfl, fun p a h h' hterm hne ha => ?_⟩
  rcases Platform.act_cases ha with ⟨hreset, -⟩ | ⟨image, t, -, -, ht, rfl⟩ | ⟨-, -, t, ht, rfl⟩
  · exact absurd hreset hne
  · rw [loadImage_eq_next ht]
    exact ⟨rfl, rfl, rfl⟩
  · obtain rfl := Host.Outcome.next.inj ((step_of_terminal hterm).symm.trans ht)
    exact ⟨rfl, rfl, rfl⟩

/-! ## A running core is never stuck (R157) -/

theorem wellFormed_of_firstBadRegister_eq_none {i : Instr} (h : i.firstBadRegister = none) :
    i.WellFormed := by
  simpa [Instr.firstBadRegister] using h

/-- An instruction that completes had legal register operands (R56). -/
theorem Completes.wellFormed {i : Instr} {s t : State} (h : Completes i s t) : i.WellFormed :=
  wellFormed_of_firstBadRegister_eq_none h.firstBadRegister

/-- Settles O11: a step is total, and it completes HLT, completes another instruction, or takes a fault. -/
theorem runningStepHaltsFaultsOrExecutes : Obligations.RunningStepHaltsFaultsOrExecutes := by
  intro s hr
  obtain ⟨t, ht⟩ := step_exists_next s
  refine ⟨t, ht, ?_⟩
  rcases step_cases ht with ⟨hterm, -⟩ | ⟨-, e, -, rfl⟩ | ⟨i, hi, hx⟩
  · exact absurd hr hterm
  · exact .inr (.inl (takeFault_eq_faulted s _ _))
  · rcases exec_cases hx with hc | ⟨e, -, rfl⟩
    · by_cases hh : i = .hlt
      · subst hh
        exact .inl hc
      · obtain ⟨hrun, hfault⟩ := hc.run_fault
        rw [if_neg hh] at hrun
        exact .inr (.inr ⟨i, hh, hc.wellFormed, hi, hx, hrun.trans hr, hfault⟩)
    · exact .inr (.inl (takeFault_eq_faulted s _ _))

end Sys2Proof.Machine
end

section
/-! PROOFS. The machine's named reset as Reset at the parameters of log entries 1, 2 and 3 (R23, R140), its
invariant, and the boot order of the host's actions (R143). -/

namespace Sys2Proof.Machine

/-! ## The named reset (R23, R140) -/

/-- A `MEM_RESET` that is everywhere the unlisted byte leaves no cell to list. -/
theorem resetMemory_of_unlisted {p : Config.ResetParams}
    (h : ∀ addr < Config.memSize, p.memReset addr = Config.unlistedByte) : resetMemory p = [] := by
  unfold resetMemory
  refine Memory.writeAll_nil_unlisted 0 fun v hv => ?_
  obtain ⟨addr, ha, rfl⟩ := List.mem_map.mp hv
  exact h addr (List.mem_range.mp ha)

/-- Reset fills the register file from `REG_RESET`; memory is the one field that takes a lemma. -/
theorem State.reset_eq_resetWith : State.reset = State.resetWith Config.namedReset := by
  have hregs : State.reset.regs = Vector.ofFn Config.namedReset.regReset := by decide
  have hmem : resetMemory Config.namedReset = [] := resetMemory_of_unlisted fun _ _ => rfl
  rw [State.resetWith, ← hregs, hmem]
  rfl

/-- Settles O2: the all-zero parameters are `Config.namedReset`. -/
theorem namedResetIsResetAtLoggedValues : Obligations.NamedResetIsResetAtLoggedValues :=
  State.reset_eq_resetWith

/-- Settles O52: the named reset is one of the resets, and each of them meets the invariant. -/
theorem resetStateMeetsInvariant : Obligations.ResetStateMeetsInvariant := by
  unfold Obligations.ResetStateMeetsInvariant
  rw [State.reset_eq_resetWith]
  exact resetWith_inv Config.namedReset

/-! ## The boot order (R143) -/

/-- The one Load after construction: the image in memory over the reset core. -/
theorem Platform.act_load_construct (p : Config.ResetParams) {image : List Byte}
    (hl : image.length ≤ Config.memSize) :
    Platform.act p (.load image) (Platform.construct p) =
      .next ⟨.loaded, (State.resetWith p).setMem ((resetMemory p).writeAll 0 image)⟩ := by
  rw [Platform.act_load_of_awaiting p image rfl, loadImage_of_le hl]
  rfl

/-- Settles O4: one equation of `Platform.act` for each action and side of the Load, and Load on the
constructed platform. -/
theorem hostActionsKeepTheBootOrder : Obligations.HostActionsKeepTheBootOrder := by
  refine fun p h => ⟨fun image hq => Platform.act_load_of_ne_awaiting p image hq,
    fun hq => Platform.act_step_of_awaiting p hq, fun hq t ht => ?_, fun image hl => ?_⟩
  · rw [Platform.act_step_of_ne_awaiting p hq, ht]
    rfl
  · exact ⟨_, Platform.act_load_construct p hl, rfl, rfl, rfl⟩

end Sys2Proof.Machine
end
